-- ==== Sys2Proof/Word.lean ====
section
/-! DEFINITION. The number types of the machine (00_scope.md R5 and section 5.2): code unit, byte, address. -/

namespace Sys2Proof

/-- A Code Unit: the raw 16-bit storage unit (R5 `CELL_BITS`, R10). Memory cells, stack entries, operand slots,
the opcode slot and the program counter are code units. -/
abbrev CodeUnit := BitVec 16

/-- A Word: an unsigned 15-bit value (R5 `WORD_BITS`); the payload of a literal operand (R54). -/
abbrev Word := BitVec 15

/-- One byte of a file that crosses the boundary of the block (R31). There are no bytes inside the block. -/
abbrev Byte := BitVec 8

/-- `Addr` (00_scope.md section 5.2): a valid memory address, 0..32775; `MEM_CELLS` is 32776 (R5, R10, R30). -/
abbrev Addr := Fin 32776

/-- A register number 0..7 (R12). -/
abbrev RegNum := Fin 8

end Sys2Proof
end

