-- ==== Sys2Proof/Machine/Flags.lean ====
section
/-! DEFINITION. The machine has no flags and no condition codes (10_state.md R23); what stands here is the computation of the
values the comparing and computing instructions write, and the test of the conditional jumps
(42_compare.md, 43_jump.md, 44_alu.md). -/

namespace Sys2Proof.Machine

/-- The value of a comparison: exactly 1 or exactly 0 (R23, R100, R101). -/
def truthUnit (b : Bool) : CodeUnit := if b then 1#16 else 0#16

/-- `eq`: all 16 bits take part (R100). -/
def eqUnit (vb vc : CodeUnit) : CodeUnit := truthUnit (vb == vc)

/-- `gt`: strict, unsigned (R101). -/
def gtUnit (vb vc : CodeUnit) : CodeUnit := truthUnit (decide (vc.toNat < vb.toNat))

/-- "True" is any non-zero 16-bit value (R106). -/
def isTrue (v : CodeUnit) : Bool := v != 0#16

/-- `WORD_MASK` applied (R5, R110): bit 15 becomes 0. -/
def maskWord (v : CodeUnit) : CodeUnit := v &&& 0x7FFF#16

/-- A natural number reduced modulo 32768 (R110 law 2). -/
def reduceWord (n : Nat) : CodeUnit := BitVec.ofNat 16 (n % 32768)

/-- `add` (R111): the exact sum, reduced. -/
def addUnit (vb vc : CodeUnit) : CodeUnit := reduceWord (vb.toNat + vc.toNat)

/-- `mult` (R112): the exact product, reduced. -/
def multUnit (vb vc : CodeUnit) : CodeUnit := reduceWord (vb.toNat * vc.toNat)

/-- `mod` (R113): the remainder, masked; none for a zero divisor. -/
def modUnit? (vb vc : CodeUnit) : Option CodeUnit :=
  if vc = 0#16 then none else some (maskWord (BitVec.ofNat 16 (vb.toNat % vc.toNat)))

/-- `and` (R114). -/
def andUnit (vb vc : CodeUnit) : CodeUnit := maskWord (vb &&& vc)

/-- `or` (R115). -/
def orUnit (vb vc : CodeUnit) : CodeUnit := maskWord (vb ||| vc)

/-- `not` (R116). -/
def notUnit (vb : CodeUnit) : CodeUnit := maskWord (~~~vb)

end Sys2Proof.Machine
end

