-- ==== Sys2Proof/Syntax.lean ====
section
/-! DEFINITION. The instructions: one constructor per row of spec/opcode_table.json (30_encoding.md R53). -/

namespace Sys2Proof

/-- The 22 instructions. An argument is the raw code unit of an operand slot, in slot order `a`, `b`, `c` (R50, R52); whether
it is a destination or a source is said by `slotsOf` of Decode.lean (R75). -/
inductive Instr where
  | halt                     -- opcode 0,  R135
  | set (a b : CodeUnit)     -- opcode 1,  R90
  | push (a : CodeUnit)      -- opcode 2,  R91
  | pop (a : CodeUnit)       -- opcode 3,  R92
  | eq (a b c : CodeUnit)    -- opcode 4,  R100
  | gt (a b c : CodeUnit)    -- opcode 5,  R101
  | jmp (a : CodeUnit)       -- opcode 6,  R105
  | jt (a b : CodeUnit)      -- opcode 7,  R106
  | jf (a b : CodeUnit)      -- opcode 8,  R107
  | add (a b c : CodeUnit)   -- opcode 9,  R111
  | mult (a b c : CodeUnit)  -- opcode 10, R112
  | mod (a b c : CodeUnit)   -- opcode 11, R113
  | and (a b c : CodeUnit)   -- opcode 12, R114
  | or (a b c : CodeUnit)    -- opcode 13, R115
  | not (a b : CodeUnit)     -- opcode 14, R116
  | rmem (a b : CodeUnit)    -- opcode 15, R120
  | wmem (a b : CodeUnit)    -- opcode 16, R121
  | call (a : CodeUnit)      -- opcode 17, R125
  | ret                      -- opcode 18, R126
  | out (a : CodeUnit)       -- opcode 19, R130
  | inp (a : CodeUnit)       -- opcode 20, R131 (`in`)
  | noop                     -- opcode 21, R136
  deriving DecidableEq, Repr

end Sys2Proof
end

