-- ==== Sys2Proof/WellFormed.lean ====
section
/-! DEFINITION. Well-formed instructions: every operand slot holds a literal or a register reference (30_encoding.md R54, R58). -/

namespace Sys2Proof

/-- A code unit that may stand in an operand slot: 0..32767 names a literal or a main cell, 32768..32775 a register; the
rest is invalid (R54). -/
def validUnit (u : CodeUnit) : Bool := decide (u.toNat ≤ 32775)

/-- No slot of the instruction is invalid (R58, R74). -/
def Instr.wellFormed : Instr → Bool
  | .halt => true
  | .set a b => validUnit a && validUnit b
  | .push a => validUnit a
  | .pop a => validUnit a
  | .eq a b c => validUnit a && validUnit b && validUnit c
  | .gt a b c => validUnit a && validUnit b && validUnit c
  | .jmp a => validUnit a
  | .jt a b => validUnit a && validUnit b
  | .jf a b => validUnit a && validUnit b
  | .add a b c => validUnit a && validUnit b && validUnit c
  | .mult a b c => validUnit a && validUnit b && validUnit c
  | .mod a b c => validUnit a && validUnit b && validUnit c
  | .and a b c => validUnit a && validUnit b && validUnit c
  | .or a b c => validUnit a && validUnit b && validUnit c
  | .not a b => validUnit a && validUnit b
  | .rmem a b => validUnit a && validUnit b
  | .wmem a b => validUnit a && validUnit b
  | .call a => validUnit a
  | .ret => true
  | .out a => validUnit a
  | .inp a => validUnit a
  | .noop => true

end Sys2Proof
end

