-- ==== Sys2Proof/Decode.lean ====
section
/-! DEFINITION. The decoder, total on any list of cells and rejecting by name, and after it the encoder
(30_encoding.md R50 to R58; 40_step_and_resolve.md R70 points 2 to 7, R74, R75). -/

namespace Sys2Proof

/-- Why a list of cells is no instruction. -/
inductive DecodeError where
  /-- The opcode cell holds 22..65535 (R57). -/
  | unknownOpcode (op : CodeUnit)
  /-- The list ends before the opcode cell or before the last slot the opcode uses (R70 point 5, R71). -/
  | truncated
  /-- A source slot holds 32776..65535 (R58, R74). -/
  | invalidOperand (u : CodeUnit)
  /-- A destination slot holds 32776..65535 (R58, R74). -/
  | addressOutOfRange (u : CodeUnit)
  deriving DecidableEq, Repr

/-! ### Operand decoding (R54) -/

/-- What an operand slot's code unit stands for (R54). -/
inductive OperandClass where
  | literal (v : Word)
  | register (r : RegNum)
  | invalid
  deriving DecidableEq, Repr

/-- The three classes of R54: `0vvv vvvv vvvv vvvv` a literal, `1000 0000 0000 0rrr` register `rrr`, the rest
invalid. -/
def classify (u : CodeUnit) : OperandClass :=
  if u.toNat ≤ 32767 then .literal (u.setWidth 15)
  else if u.toNat ≤ 32775 then .register ⟨u.toNat % 8, Nat.mod_lt _ (by decide)⟩
  else .invalid

/-- The kinds of operand slot (R52): a destination is written at its raw address, a source is resolved. -/
inductive SlotKind where
  | dest
  | source
  deriving DecidableEq, Repr

/-- The operand slots an instruction uses, in slot order, with their kinds (R75). -/
def slotsOf : Instr → List (SlotKind × CodeUnit)
  | .halt => []
  | .set a b => [(.dest, a), (.source, b)]
  | .push a => [(.source, a)]
  | .pop a => [(.dest, a)]
  | .eq a b c => [(.dest, a), (.source, b), (.source, c)]
  | .gt a b c => [(.dest, a), (.source, b), (.source, c)]
  | .jmp a => [(.source, a)]
  | .jt a b => [(.source, a), (.source, b)]
  | .jf a b => [(.source, a), (.source, b)]
  | .add a b c => [(.dest, a), (.source, b), (.source, c)]
  | .mult a b c => [(.dest, a), (.source, b), (.source, c)]
  | .mod a b c => [(.dest, a), (.source, b), (.source, c)]
  | .and a b c => [(.dest, a), (.source, b), (.source, c)]
  | .or a b c => [(.dest, a), (.source, b), (.source, c)]
  | .not a b => [(.dest, a), (.source, b)]
  | .rmem a b => [(.dest, a), (.source, b)]
  | .wmem a b => [(.source, a), (.source, b)]
  | .call a => [(.source, a)]
  | .ret => []
  | .out a => [(.source, a)]
  | .inp a => [(.dest, a)]
  | .noop => []

/-- The rejection of one slot, if it is invalid: by its kind, with its value (R55, R74). -/
def slotError : SlotKind × CodeUnit → Option DecodeError
  | (kind, u) =>
    match classify u, kind with
    | .invalid, .dest => some (.addressOutOfRange u)
    | .invalid, .source => some (.invalidOperand u)
    | _, _ => none

/-- The rejection of the first invalid slot, in the order `a`, `b`, `c` (R74). -/
def firstSlotError : List (SlotKind × CodeUnit) → Option DecodeError
  | [] => none
  | slot :: rest =>
    match slotError slot with
    | some e => some e
    | none => firstSlotError rest

/-! ### The decoder -/

/-- Reads a one-slot instruction's slot (formats `S` and `D` of R52). -/
def readSlots1 (f : CodeUnit → Instr) : List CodeUnit → Except DecodeError (Instr × List CodeUnit)
  | a :: rest => .ok (f a, rest)
  | _ => .error .truncated

/-- Reads a two-slot instruction's slots (formats `DS` and `SS` of R52). -/
def readSlots2 (f : CodeUnit → CodeUnit → Instr) : List CodeUnit → Except DecodeError (Instr × List CodeUnit)
  | a :: b :: rest => .ok (f a b, rest)
  | _ => .error .truncated

/-- Reads a three-slot instruction's slots (format `DSS` of R52). -/
def readSlots3 (f : CodeUnit → CodeUnit → CodeUnit → Instr) :
    List CodeUnit → Except DecodeError (Instr × List CodeUnit)
  | a :: b :: c :: rest => .ok (f a b c, rest)
  | _ => .error .truncated

/-- The opcode map R53: the opcode cell is compared raw with 0..21 (R51), and the opcode alone gives the slots. -/
def readInstr : List CodeUnit → Except DecodeError (Instr × List CodeUnit)
  | [] => .error .truncated
  | op :: rest =>
    match op.toNat with
    | 0 => .ok (.halt, rest)
    | 1 => readSlots2 .set rest
    | 2 => readSlots1 .push rest
    | 3 => readSlots1 .pop rest
    | 4 => readSlots3 .eq rest
    | 5 => readSlots3 .gt rest
    | 6 => readSlots1 .jmp rest
    | 7 => readSlots2 .jt rest
    | 8 => readSlots2 .jf rest
    | 9 => readSlots3 .add rest
    | 10 => readSlots3 .mult rest
    | 11 => readSlots3 .mod rest
    | 12 => readSlots3 .and rest
    | 13 => readSlots3 .or rest
    | 14 => readSlots2 .not rest
    | 15 => readSlots2 .rmem rest
    | 16 => readSlots2 .wmem rest
    | 17 => readSlots1 .call rest
    | 18 => .ok (.ret, rest)
    | 19 => readSlots1 .out rest
    | 20 => readSlots1 .inp rest
    | 21 => .ok (.noop, rest)
    | _ => .error (.unknownOpcode op)

/-- Decodes the instruction at the head of a list of cells and gives the cells after it; the checks come in the order of
R70: opcode, number of cells, slots `a`, `b`, `c`. -/
def decode (cells : List CodeUnit) : Except DecodeError (Instr × List CodeUnit) :=
  match readInstr cells with
  | .error e => .error e
  | .ok (i, rest) =>
    match firstSlotError (slotsOf i) with
    | some e => .error e
    | none => .ok (i, rest)

/-! ### The encoder -/

/-- The cells of an instruction: the opcode cell of R53, then the slots in order (R50). -/
def encode : Instr → List CodeUnit
  | .halt => [0#16]
  | .set a b => [1#16, a, b]
  | .push a => [2#16, a]
  | .pop a => [3#16, a]
  | .eq a b c => [4#16, a, b, c]
  | .gt a b c => [5#16, a, b, c]
  | .jmp a => [6#16, a]
  | .jt a b => [7#16, a, b]
  | .jf a b => [8#16, a, b]
  | .add a b c => [9#16, a, b, c]
  | .mult a b c => [10#16, a, b, c]
  | .mod a b c => [11#16, a, b, c]
  | .and a b c => [12#16, a, b, c]
  | .or a b c => [13#16, a, b, c]
  | .not a b => [14#16, a, b]
  | .rmem a b => [15#16, a, b]
  | .wmem a b => [16#16, a, b]
  | .call a => [17#16, a]
  | .ret => [18#16]
  | .out a => [19#16, a]
  | .inp a => [20#16, a]
  | .noop => [21#16]

/-- How many cells the instruction occupies, 1 to 4 (R50, R52). -/
def cellCount (i : Instr) : Nat := (encode i).length

/-! ### The opcode table's numbering -/

/-- The four cells of an instruction whose bits are `w`, numbered from the least significant bit of the opcode cell; bits
from `nbits` upwards are 0. Four cells is the longest instruction (R50). -/
def tableCells (nbits w : Nat) : List CodeUnit :=
  let bits := w % 2 ^ nbits
  [BitVec.ofNat 16 bits, BitVec.ofNat 16 (bits / 2 ^ 16), BitVec.ofNat 16 (bits / 2 ^ 32), BitVec.ofNat 16 (bits / 2 ^ 48)]

/-- The instruction the decoder reads from those cells. -/
def decodeTableWord (nbits w : Nat) : Option Instr :=
  match decode (tableCells nbits w) with
  | .ok (i, _) => some i
  | .error _ => none

end Sys2Proof
end

