-- ==== Sys2Proof/Config.lean ====
section
/-! DEFINITION. The parameters of the spec with the value the spec takes (00_scope.md R5, R6), and the one free value. -/

namespace Sys2Proof

/-- `FETCH_LIMIT` (R6, R71, decision D3 of the spec): every cell of an instruction lies below it. -/
def Config.fetchLimit : Nat := 32768

/-- `STACK_DEPTH` (R6, R18, decision D5 of the spec): `none` is the unbounded stack, `some d` a finite build. -/
def Config.stackDepth : Option Nat := none

/-- `RESET_FILL` (R6, R27, decision D8 of the spec): what a cell that nothing has written holds (log entry 2, unsafe). -/
def Config.resetFill : CodeUnit := 0#16

/-- DESIGN CHOICE (log entry 6), safe: a FREE VALUE. What the 16-bit `pc` holds when `in` completes and the `pc` a host
restore left (the argument) plus 2 does not fit in 16 bits. R152 says "the restored pc plus 2" and R15 that the sum cannot
overflow, which holds of fetched instructions only; the spec states no result for a restored `pc` of 65534 or 65535. -/
opaque Config.pcPastTop : CodeUnit → CodeUnit

end Sys2Proof
end

