-- ==== Sys2Proof/Machine/State.lean ====
section
/-! DEFINITION. The state of the machine as plain data (10_state.md R10 to R27), its reasons to stop, and the state after reset. -/

namespace Sys2Proof.Machine

/-- The memory of 32776 cells (R10, R30): address and contents of each cell that does not hold `Config.resetFill`, addresses
strictly rising (`Memory.wf` of Ops.lean). The cell is the smallest unit there is (R31), so an entry is a 16-bit cell. The
registers are the cells 32768..32775 (R12). DESIGN CHOICE, log entry 1. -/
abbrev Memory := List (Nat × CodeUnit)

/-- The causes of a fault (R171). -/
inductive Cause where
  /-- An opcode cell of 22..65535 (R57). -/
  | unknownOpcode
  /-- A source slot of 32776..65535 (R58, R74). -/
  | invalidOperand
  /-- A destination slot, or an effective address of `rmem` or `wmem`, of 32776..65535 (R74, R120, R121). -/
  | addressOutOfRange
  /-- The pc, or a cell of the instruction, at or above the fetch limit (R71). -/
  | pcOutOfRange
  /-- `pop` on an empty stack (R92). -/
  | stackUnderflow
  /-- `mod` by zero (R113). -/
  | divideByZero
  /-- `push` or `call` on a full stack, in a build with a finite `STACK_DEPTH` only (R18). -/
  | stackOverflow
  deriving DecidableEq, Repr

/-- The run status (R20), with the state that exists in one status only: the latched destination of the `in` in flight (R22)
and the fault record (R21); DEDUCED, log entry 16. -/
inductive Status where
  /-- The engine takes steps. -/
  | running
  /-- An `in` waits for the input port; the argument is `latch_a` (R22, R131). -/
  | waitInput (latchA : Addr)
  /-- Stopped normally (R177). -/
  | halted
  /-- Stopped by a fault; the arguments are the fault record (R21, R172). -/
  | faulted (cause : Cause) (info : CodeUnit)
  deriving DecidableEq, Repr

/-- A snapshot: "a serialized tuple of PC, stack contents (bottom-to-top order), full memory contents" (R153). -/
structure Snapshot where
  pc : CodeUnit
  stack : List CodeUnit
  mem : Memory
  deriving DecidableEq, Repr

/-- What the host and the input port can do while the engine waits (the action table of R146). -/
inductive HostAction where
  /-- The input port answers the request with one code unit (R144). -/
  | deliver (v : CodeUnit)
  /-- Host halt (R150). -/
  | halt
  /-- Host poke of one cell (R151). -/
  | poke (addr value : CodeUnit)
  /-- Host restore of a snapshot (R152). -/
  | restore (snap : Snapshot)
  /-- Read all of memory (R154). -/
  | dump
  /-- Read a snapshot (R154). -/
  | save
  deriving DecidableEq, Repr

/-- The state of the machine. The first five fields are the block's (the table of 10_state.md; `cause`, `info` and `latch_a`
are arguments of `status`); the last two are its environment, not state of the block (R26). -/
structure State where
  /-- Main cells and registers (R10, R11, R12, R13). -/
  mem : Memory
  /-- The program counter (R14). -/
  pc : CodeUnit
  /-- The call/return stack, top last (R16, R17). -/
  stack : List CodeUnit
  /-- Instructions fetched (R19). -/
  cycles : Nat
  /-- Run status, fault record, latch (R20, R21, R22). -/
  status : Status
  /-- The code units handed to the output port so far, in order (R79, R142, R143). -/
  output : List CodeUnit
  /-- The input answers and host actions that have arrived and are not yet served, first one first (R144, R145, R146). More may
  arrive before any step: `State.fedRun` of Feed.lean runs the block under any input, an endless one too (log entry 17). -/
  hostQueue : List HostAction
  deriving DecidableEq, Repr

/-- Reasons for which the MODEL stops outside the spec. There are none: every fault of the spec is taken as R172 describes it,
a next state whose status is `faulted`. Nothing raises a `Fault`; this is safe and leaves no behaviour out. -/
inductive Fault where
  deriving DecidableEq, Repr

/-- Reasons for which the model has no meaning for an instruction. -/
inductive Refusal where
  /-- Raised by an arm of `exec` whose instruction has no meaning yet; safe. No arm raises it in this model. -/
  | notModelled (mnemonic : String)
  deriving DecidableEq, Repr

/-- The machine right after reset (R27, R200). The unlisted cells hold `Config.resetFill`. The two environment fields are
empty: DESIGN CHOICE, log entries 4 and 5. -/
def State.reset : State where
  mem := []
  pc := 0#16
  stack := []
  cycles := 0
  status := .running
  output := []
  hostQueue := []

end Sys2Proof.Machine
end

