-- ==== Sys2Proof/Machine/Ops.lean ====
section
/-! DEFINITION. The named operations over memory, registers, pc, stack, ports and status, and the one operation that raises
a fault (10_state.md R10 to R24, 20_memory.md R33, 60_exceptions.md R171, R172). -/

namespace Sys2Proof.Machine

/-- What a meaning and a step answer. -/
abbrev Result := Host.Outcome State Fault Refusal

/-! ### Memory -/

/-- A code unit used raw as an address: 0..32775 is one, the rest is not (R34). -/
def addrOf? (u : CodeUnit) : Option Addr :=
  if h : u.toNat < 32776 then some ⟨u.toNat, h⟩ else none

/-- The address of register `r`: 32768 + r (R12). -/
def regAddr (r : RegNum) : Addr := ⟨32768 + r.val, by have := r.isLt; omega⟩

/-- The contents of the cell with key `a` in a list of entries; `Config.resetFill` where no entry lists it (R27). -/
def Memory.lookup : Memory → Nat → CodeUnit
  | [], _ => Config.resetFill
  | (k, v) :: rest, a => if k = a then v else Memory.lookup rest a

/-- `MemRead(addr, 1)` (R33). -/
def Memory.read (m : Memory) (a : Addr) : CodeUnit := Memory.lookup m a.val

/-- The memory without any entry for `a`. -/
def Memory.erase (m : Memory) (a : Nat) : Memory := m.filter (fun e => e.1 != a)

/-- Puts an entry before the first entry of a larger address. -/
def Memory.insert (a : Nat) (v : CodeUnit) : Memory → Memory
  | [] => [(a, v)]
  | e :: rest => if a < e.1 then (a, v) :: e :: rest else e :: Memory.insert a v rest

/-- `MemWrite(addr, 1, v)`: all 16 bits of one cell (R33). Writing what an unlisted cell holds removes the entry, so equal
memories are equal lists. -/
def Memory.write (m : Memory) (a : Addr) (v : CodeUnit) : Memory :=
  if v = Config.resetFill then Memory.erase m a.val else Memory.insert a.val v (Memory.erase m a.val)

/-- The addresses of the entries rise strictly from `lo` on, are addresses of the machine, and no entry holds
`Config.resetFill`. -/
def Memory.wfFrom : Nat → Memory → Bool
  | _, [] => true
  | lo, (k, v) :: rest => decide (lo ≤ k) && decide (k < 32776) && decide (v ≠ Config.resetFill) && Memory.wfFrom (k + 1) rest

/-- The canonical form of a memory. -/
def Memory.wf (m : Memory) : Bool := Memory.wfFrom 0 m

/-- Code units stored into main cells from address `a` upward; nothing is stored at or above `MAIN_CELLS` = 32768 (R5). -/
def Memory.storeMain (m : Memory) : Nat → List CodeUnit → Memory
  | _, [] => m
  | a, u :: rest =>
    if h : a < 32768 then
      Memory.storeMain (m.write ⟨a, Nat.lt_trans h (by decide)⟩ u) (a + 1) rest
    else m

/-! ### Cells, registers, pc, cycle counter -/

def State.read (s : State) (a : Addr) : CodeUnit := s.mem.read a

/-- The contents of register `r`, the cell at 32768 + r (R12). -/
def State.reg (s : State) (r : RegNum) : CodeUnit := s.read (regAddr r)

def State.writeCell (s : State) (a : Addr) (v : CodeUnit) : State := { s with mem := s.mem.write a v }

/-- `pc <- pc + n` (R15). An instruction that `step` runs lies below the fetch limit, so the sum does not overflow (R15). -/
def State.advance (s : State) (n : Nat) : State := { s with pc := s.pc + BitVec.ofNat 16 n }

/-- `pc <- target`, not masked and not checked (R14). -/
def State.jumpTo (s : State) (target : CodeUnit) : State := { s with pc := target }

/-- `cycles <- cycles + 1` (R19, R70 point 3). -/
def State.count (s : State) : State := { s with cycles := s.cycles + 1 }

/-! ### The call/return stack (R16, R17, R18) -/

/-- The number of entries of the stack. -/
def State.depth (s : State) : Nat := s.stack.length

/-- `push(v)`: the top is the last entry (R17). -/
def State.pushUnit (s : State) (v : CodeUnit) : State := { s with stack := s.stack ++ [v] }

/-- `pop()`: the last entry, and the state without it; none on an empty stack (R17). -/
def State.popUnit? (s : State) : Option (CodeUnit × State) :=
  match s.stack.getLast? with
  | none => none
  | some v => some (v, { s with stack := s.stack.dropLast })

/-- The stack is at the capacity of a finite build; never for an unbounded stack (R18). -/
def State.stackFull (limit : Option Nat) (s : State) : Bool := limit == some s.depth

/-! ### Faults (60_exceptions.md) -/

/-- `raise <Fault>(info)` (R172): the status becomes `faulted` with the fault record, nothing else changes. There is no
handler and no return (R173, R175). -/
def State.raise (s : State) (cause : Cause) (info : CodeUnit) : State := { s with status := .faulted cause info }

/-- The code of a cause (R171). -/
def Cause.code : Cause → Nat
  | .unknownOpcode => 1
  | .invalidOperand => 2
  | .addressOutOfRange => 3
  | .pcOutOfRange => 4
  | .stackUnderflow => 5
  | .divideByZero => 6
  | .stackOverflow => 7

/-- The source's classes of fault (R178). -/
inductive FaultClass where
  | malformedProgram
  | stackUnderflow
  | arithmetic
  | unknownOpcode
  deriving DecidableEq, Repr

/-- The class of a cause (R178); the source has none for `StackOverflow` (R171). -/
def Cause.faultClass : Cause → Option FaultClass
  | .unknownOpcode => some .unknownOpcode
  | .invalidOperand => some .malformedProgram
  | .addressOutOfRange => some .malformedProgram
  | .pcOutOfRange => some .malformedProgram
  | .stackUnderflow => some .stackUnderflow
  | .divideByZero => some .arithmetic
  | .stackOverflow => none

/-- The fault a rejection of the decoder raises, with its `info` (R57, R71, R74, R171). -/
def State.raiseDecodeError (s : State) : DecodeError → State
  | .unknownOpcode op => s.raise .unknownOpcode op
  | .truncated => s.raise .pcOutOfRange s.pc
  | .invalidOperand u => s.raise .invalidOperand u
  | .addressOutOfRange u => s.raise .addressOutOfRange u

/-- The reset event (R200, R201), accepted in every status; it stands in the place of a return from a fault, since only a reset
leaves `Halted` and `Faulted` (R20, R175). It does not touch what is outside the block: the output already emitted and the
host's actions to come. When it arrives is outside the model: `step` never takes it (DESIGN CHOICE, log entry 11). -/
def State.resetEvent (s : State) : State := { State.reset with output := s.output, hostQueue := s.hostQueue }

/-! ### Normal end, output port, input port -/

/-- `status <- Halted` (R135, R126, R150). -/
def State.stopNormally (s : State) : State := { s with status := .halted }

/-- `Output(v)`: one transfer on the output port, after all earlier ones (R142). -/
def State.emit (s : State) (v : CodeUnit) : State := { s with output := s.output ++ [v] }

/-- The pc after a completed `in`: the pc as it is then, plus 2 (R131, R152); a free value where the sum does not fit in
16 bits (log entry 6). -/
def pcAfterInput (pc : CodeUnit) : CodeUnit :=
  if pc.toNat + 2 < 65536 then pc + 2#16 else Config.pcPastTop pc

/-- The input port delivers `v` to an `in` whose latched destination is `latchA`: the write, the pc, the status (R131). -/
def State.completeInput (s : State) (latchA : Addr) (v : CodeUnit) : State :=
  { s.writeCell latchA v with pc := pcAfterInput s.pc, status := .running }

/-- An `in` with validated destination `latchA` starts (R131, R144): if the port's answer is the next thing to come it is
taken at once and the wait is not observed; else the engine is suspended with the destination latched (R22). Taking the answer in the same step is a DESIGN CHOICE (log
entry 15). -/
def State.requestInput (s : State) (latchA : Addr) : State :=
  match s.hostQueue with
  | .deliver v :: rest => { s with hostQueue := rest }.completeInput latchA v
  | _ => { s with status := .waitInput latchA }

end Sys2Proof.Machine
end

