-- ==== Sys2Proof/Machine/Operands.lean ====
section
/-! DEFINITION. The operand forms: the resolver, the checks of a slot and of an effective address with the fault each raises,
and the two ends of the stack (40_step_and_resolve.md R72 to R76). -/

namespace Sys2Proof.Machine

/-- `resolve(u)` (R72): a literal stands for itself, a register reference for the register's 16 bits unmasked, one level
only; anything else has no value (R74). -/
def State.resolve? (s : State) (u : CodeUnit) : Option CodeUnit :=
  match classify u with
  | .literal v => some (v.setWidth 16)
  | .register r => some (s.reg r)
  | .invalid => none

/-- A source slot: goes on with the resolved value, or raises `InvalidOperand` with the slot's value (R58, R74). Reads have no
side effect (R33), so resolving at the check is resolving before the write (R76). `step` has validated the slots already; the
meanings check them again, so that they are total (DESIGN CHOICE, log entry 14). -/
def withSource (u : CodeUnit) (s : State) (go : CodeUnit → Result) : Result :=
  match s.resolve? u with
  | some v => go v
  | none => .next (s.raise .invalidOperand u)

/-- A destination slot taken raw (R73, R74), or the effective address of `rmem` and `wmem` (R120, R121): goes on with the
address, or raises `AddressOutOfRange` with the value. -/
def withAddress (u : CodeUnit) (s : State) (go : Addr → Result) : Result :=
  match addrOf? u with
  | some a => go a
  | none => .next (s.raise .addressOutOfRange u)

/-- A push in a build of the given capacity: goes on with the pushed state, or raises `StackOverflow` (R18). -/
def withPushIn (limit : Option Nat) (v : CodeUnit) (s : State) (go : State → Result) : Result :=
  if s.stackFull limit then .next (s.raise .stackOverflow 0#16) else go (s.pushUnit v)

/-- A push in this build (R17, R18). -/
def withPush (v : CodeUnit) (s : State) (go : State → Result) : Result := withPushIn Config.stackDepth v s go

/-- A pop: goes on with the top entry and the state without it, or raises `StackUnderflow` (R92). -/
def withPop (s : State) (go : CodeUnit → State → Result) : Result :=
  match s.popUnit? with
  | some (v, t) => go v t
  | none => .next (s.raise .stackUnderflow 0#16)

end Sys2Proof.Machine
end

