-- ==== Sys2Proof/Machine/Compare.lean ====
section
/-! DEFINITION. `eq`, `gt` (42_compare.md R100, R101). -/

namespace Sys2Proof.Machine

/-- The three-slot form shared by `eq`, `gt`, `add`, `mult`, `and`, `or` (44_alu.md section 2, R76): slots checked in order,
both sources read, then the destination written and the pc advanced by 4. -/
def execDSS (f : CodeUnit → CodeUnit → CodeUnit) (a b c : CodeUnit) (s : State) : Result :=
  withAddress a s fun d => withSource b s fun vb => withSource c s fun vc =>
    .next ((s.writeCell d (f vb vc)).advance 4)

/-- `eq a b c` (R100). -/
def execEq (a b c : CodeUnit) (s : State) : Result := execDSS eqUnit a b c s

/-- `gt a b c` (R101). -/
def execGt (a b c : CodeUnit) (s : State) : Result := execDSS gtUnit a b c s

end Sys2Proof.Machine
end

