-- ==== Sys2Proof/Machine/Alu.lean ====
section
/-! DEFINITION. `add`, `mult`, `mod`, `and`, `or`, `not` (44_alu.md R110 to R116). -/

namespace Sys2Proof.Machine

/-- `add a b c` (R111). -/
def execAdd (a b c : CodeUnit) (s : State) : Result := execDSS addUnit a b c s

/-- `mult a b c` (R112). -/
def execMult (a b c : CodeUnit) (s : State) : Result := execDSS multUnit a b c s

/-- `mod a b c` (R113): a zero divisor raises `DivideByZero` after the slots are checked. -/
def execMod (a b c : CodeUnit) (s : State) : Result :=
  withAddress a s fun d => withSource b s fun vb => withSource c s fun vc =>
    match modUnit? vb vc with
    | none => .next (s.raise .divideByZero 0#16)
    | some r => .next ((s.writeCell d r).advance 4)

/-- `and a b c` (R114). -/
def execAnd (a b c : CodeUnit) (s : State) : Result := execDSS andUnit a b c s

/-- `or a b c` (R115). -/
def execOr (a b c : CodeUnit) (s : State) : Result := execDSS orUnit a b c s

/-- `not a b` (R116). -/
def execNot (a b : CodeUnit) (s : State) : Result :=
  withAddress a s fun d => withSource b s fun vb => .next ((s.writeCell d (notUnit vb)).advance 3)

end Sys2Proof.Machine
end

