-- ==== Sys2Proof/Machine/CallRet.lean ====
section
/-! DEFINITION. `call`, `ret` (46_call_ret.md R125, R126). -/

namespace Sys2Proof.Machine

/-- `call a` (R125): the return address is the pc plus 2; the target is not masked and not checked. -/
def execCall (a : CodeUnit) (s : State) : Result :=
  withSource a s fun target => withPush (s.pc + 2#16) s fun t => .next (t.jumpTo target)

/-- `ret` (R126): on an empty stack a normal halt with the pc after the `ret` cell. -/
def execRet (s : State) : Result :=
  match s.popUnit? with
  | some (v, t) => .next (t.jumpTo v)
  | none => .next (s.advance 1).stopNormally

end Sys2Proof.Machine
end

