-- ==== Sys2Proof/Machine/Io.lean ====
section
/-! DEFINITION. `out`, `in` (47_io.md R130, R131). -/

namespace Sys2Proof.Machine

/-- `out a` (R130): the resolved 16 bits go to the output port whole. -/
def execOut (a : CodeUnit) (s : State) : Result :=
  withSource a s fun v => .next ((s.emit v).advance 2)

/-- `in a` (R131): the destination is checked before any input is requested. -/
def execInp (a : CodeUnit) (s : State) : Result :=
  withAddress a s fun d => .next (s.requestInput d)

end Sys2Proof.Machine
end

