-- ==== Sys2Proof/Machine/Jump.lean ====
section
/-! DEFINITION. `jmp`, `jt`, `jf` (43_jump.md R105, R106, R107). -/

namespace Sys2Proof.Machine

/-- `jmp a` (R105): the target is not masked and not checked. -/
def execJmp (a : CodeUnit) (s : State) : Result :=
  withSource a s fun t => .next (s.jumpTo t)

/-- `jt a b` (R106): both slots are checked whether or not the jump is taken. -/
def execJt (a b : CodeUnit) (s : State) : Result :=
  withSource a s fun va => withSource b s fun vb =>
    .next (if isTrue va then s.jumpTo vb else s.advance 3)

/-- `jf a b` (R107). -/
def execJf (a b : CodeUnit) (s : State) : Result :=
  withSource a s fun va => withSource b s fun vb =>
    .next (if isTrue va then s.advance 3 else s.jumpTo vb)

end Sys2Proof.Machine
end

