-- ==== Sys2Proof/Machine/LoadStore.lean ====
section
/-! DEFINITION. `rmem`, `wmem` (45_mem.md R120, R121). -/

namespace Sys2Proof.Machine

/-- `rmem a b` (R120): the effective address is checked after both slots; the cell is copied unmasked. -/
def execRmem (a b : CodeUnit) (s : State) : Result :=
  withAddress a s fun d => withSource b s fun ea => withAddress ea s fun e =>
    .next ((s.writeCell d (s.read e)).advance 3)

/-- `wmem a b` (R121): slot `a` is a source whose value is the address written. -/
def execWmem (a b : CodeUnit) (s : State) : Result :=
  withSource a s fun ea => withSource b s fun v => withAddress ea s fun e =>
    .next ((s.writeCell e v).advance 3)

end Sys2Proof.Machine
end

