-- ==== Sys2Proof/Machine/MoveStack.lean ====
section
/-! DEFINITION. `set`, `push`, `pop` (41_move_stack.md R90, R91, R92). -/

namespace Sys2Proof.Machine

/-- `set a b` (R90): the value is copied unmasked. -/
def execSet (a b : CodeUnit) (s : State) : Result :=
  withAddress a s fun d => withSource b s fun v => .next ((s.writeCell d v).advance 3)

/-- `push a` (R91). -/
def execPush (a : CodeUnit) (s : State) : Result :=
  withSource a s fun v => withPush v s fun t => .next (t.advance 2)

/-- `pop a` (R92): the destination is checked before the stack is looked at. -/
def execPop (a : CodeUnit) (s : State) : Result :=
  withAddress a s fun d => withPop s fun v t => .next ((t.writeCell d v).advance 2)

end Sys2Proof.Machine
end

