-- ==== Sys2Proof/Machine/System.lean ====
section
/-! DEFINITION. `halt`, `noop` (48_system.md R135, R136). -/

namespace Sys2Proof.Machine

/-- `halt` (R135). -/
def execHalt (s : State) : Result := .next (s.advance 1).stopNormally

/-- `noop` (R136). -/
def execNoop (s : State) : Result := .next (s.advance 1)

end Sys2Proof.Machine
end

