-- ==== Sys2Proof/Machine/Fetch.lean ====
section
/-! DEFINITION. Points 1 to 7 of the step: fetch, count, decode, validate (40_step_and_resolve.md R70, R71, R74). -/

namespace Sys2Proof.Machine

/-- What the common part of a step gives: the state in which the step has ended with a fault, or the instruction to execute
and the state it executes in. -/
inductive Fetched where
  | stopped (s : State)
  | run (i : Instr) (s : State)
  deriving DecidableEq, Repr

/-- The cells from address `a` on that may be fetched: those below `Config.fetchLimit`, at most `n` (R71). -/
def fetchCells (m : Memory) : Nat → Nat → List CodeUnit
  | 0, _ => []
  | n + 1, a =>
    if h : a < Config.fetchLimit then
      m.read ⟨a, Nat.lt_trans h (by decide)⟩ :: fetchCells m n (a + 1)
    else []

/-- Points 1 to 7 of R70. A pc at or above the fetch limit faults before anything is read or counted (R71); every later fault
is counted (R19). Reading a cell the opcode does not use has no effect (R70). -/
def fetch (s : State) : Fetched :=
  if s.pc.toNat < Config.fetchLimit then
    match decode (fetchCells s.mem 4 s.pc.toNat) with
    | .ok (i, _) => .run i s.count
    | .error e => .stopped (s.count.raiseDecodeError e)
  else .stopped (s.raise .pcOutOfRange s.pc)

/-- The state with the instruction of the given opcode-table bits in the main cells from the pc on, and the engine running:
it stands for the loader (R205, log entry 10). -/
def placeAtPc (s : State) (nbits w : Nat) : State :=
  { s with mem := s.mem.storeMain s.pc.toNat (tableCells nbits w), status := .running }

end Sys2Proof.Machine
end

