-- ==== Sys2Proof/Machine/HostPort.lean ====
section
/-! DEFINITION. The host port, the status port, the program loader and the file layouts (50_interfaces.md R146 to R156,
70_reset_and_hazards.md R205). -/

namespace Sys2Proof.Machine

/-! ### Host actions during `WaitInput` -/

/-- What a host read shows of the block (R154): pc, stack and memory. -/
def State.snapshot (s : State) : Snapshot := { pc := s.pc, stack := s.stack, mem := s.mem }

/-- Host poke (R151): one cell, all 16 bits; an address above 32775 is refused with no change (decision D22 of the spec). -/
def State.poke (s : State) (addr value : CodeUnit) : State :=
  match addrOf? addr with
  | some a => s.writeCell a value
  | none => s

/-- Host restore (R152): pc, stack and memory replaced together; cycles, status and latch untouched. -/
def State.restore (s : State) (snap : Snapshot) : State :=
  { s with pc := snap.pc, stack := snap.stack, mem := snap.mem }

/-- The effect of one host action on an engine that waits with the given latch (the action table of R146). Only `deliver` and
`halt` end the wait. -/
def State.hostAct (s : State) (latchA : Addr) : HostAction → State
  | .deliver v => s.completeInput latchA v
  | .halt => s.stopNormally
  | .poke addr value => s.poke addr value
  | .restore snap => s.restore snap
  | .dump => s
  | .save => s

/-- One move of an engine that waits: the next host action takes effect; with none to come the engine goes on waiting
(R131, R144, decision D14 of the spec). Actions are served in the order of the queue (DESIGN CHOICE, log entry 13). -/
def State.serveWait (s : State) (latchA : Addr) : State :=
  match s.hostQueue with
  | [] => s
  | action :: rest => { s with hostQueue := rest }.hostAct latchA action

/-! ### Status port (R155) -/

/-- The four values of `status` as a word on a port (R20), without the state that goes with two of them. -/
inductive StatusName where
  | running
  | waitInput
  | halted
  | faulted
  deriving DecidableEq, Repr

def Status.name : Status → StatusName
  | .running => .running
  | .waitInput _ => .waitInput
  | .halted => .halted
  | .faulted _ _ => .faulted

/-- `cause` (R21): present exactly when the status is `faulted`. -/
def State.cause? (s : State) : Option Cause :=
  match s.status with
  | .faulted cause _ => some cause
  | _ => none

/-- `info` (R21): present exactly when the status is `faulted`. -/
def State.info? (s : State) : Option CodeUnit :=
  match s.status with
  | .faulted _ info => some info
  | _ => none

/-- What the status port shows: the row `status` of R140's table, R24, R155. The hidden `latch_a` (R22) is not on it. -/
structure StatusView where
  status : StatusName
  cause : Option Cause
  info : Option CodeUnit
  pc : CodeUnit
  cycles : Nat
  depth : Nat
  deriving DecidableEq, Repr

def State.statusPort (s : State) : StatusView :=
  { status := s.status.name, cause := s.cause?, info := s.info?, pc := s.pc, cycles := s.cycles, depth := s.depth }

/-- `latch_a` (R22): present exactly when the status is `waitInput`. -/
def State.latchA? (s : State) : Option Addr :=
  match s.status with
  | .waitInput a => some a
  | _ => none

/-! ### Bytes of the file formats: little-endian (R31, R153, decision D20 of the spec) -/

/-- A code unit as two bytes, low byte first. -/
def unitBytes (u : CodeUnit) : List Byte := [BitVec.ofNat 8 u.toNat, BitVec.ofNat 8 (u.toNat / 256)]

/-- The code unit of a low and a high byte. -/
def unitOfBytes (lo hi : Byte) : CodeUnit := BitVec.ofNat 16 (lo.toNat + 256 * hi.toNat)

/-- The code units of a list of bytes; a trailing odd byte is ignored (R205). -/
def unitsOfBytes : List Byte → List CodeUnit
  | lo :: hi :: rest => unitOfBytes lo hi :: unitsOfBytes rest
  | _ => []

/-- A 32-bit count as four bytes, low byte first (R153). -/
def countBytes (n : Nat) : List Byte :=
  [BitVec.ofNat 8 n, BitVec.ofNat 8 (n / 256), BitVec.ofNat 8 (n / 65536), BitVec.ofNat 8 (n / 16777216)]

/-- The 32-bit count of four bytes. -/
def countOfBytes (b0 b1 b2 b3 : Byte) : Nat :=
  b0.toNat + 256 * b1.toNat + 65536 * b2.toNat + 16777216 * b3.toNat

/-! ### Program loader (R205) -/

/-- No step has been taken since reset, the one time at which the loader may act (R146). DEDUCED (log entry 18): the engine
runs and has counted no cycle, since a first step, at pc 0, always reads an opcode cell and counts it (R19, R27, R70). -/
def State.beforeFirstStep (s : State) : Bool := decide (s.status = .running) && s.cycles == 0

/-- Loads a program image into cells 0 upward; refused after the first step (R146), and for an image of more than 32768 code
units (R205, decision D21 of the spec). -/
def State.loadImage (s : State) (image : List Byte) : Option State :=
  let units := unitsOfBytes image
  if s.beforeFirstStep && decide (units.length ≤ 32768) then some { s with mem := s.mem.storeMain 0 units } else none

/-! ### Memory dump and snapshot (R153, R154) -/

/-- The contents of all 32776 cells in address order. -/
def Memory.cells (m : Memory) : List CodeUnit := (List.finRange 32776).map m.read

/-- The memory whose cells from address `a` on hold the given code units. -/
def Memory.ofCellsFrom : Nat → List CodeUnit → Memory
  | _, [] => []
  | a, u :: rest =>
    if u = Config.resetFill then Memory.ofCellsFrom (a + 1) rest else (a, u) :: Memory.ofCellsFrom (a + 1) rest

/-- The bytes of a list of code units. -/
def bytesOfUnits (us : List CodeUnit) : List Byte := us.flatMap unitBytes

/-- The memory dump: 65552 bytes, no header (R153). -/
def Memory.dumpBytes (m : Memory) : List Byte := bytesOfUnits m.cells

/-- The bytes of a snapshot (R153); a stack of 2^32 entries or more cannot be saved (R18, R153). -/
def Snapshot.toBytes? (snap : Snapshot) : Option (List Byte) :=
  if snap.stack.length < 2 ^ 32 then
    some (unitBytes snap.pc ++ (countBytes snap.stack.length ++ (bytesOfUnits snap.stack ++ snap.mem.dumpBytes)))
  else none

/-- The snapshot a file holds (R153): none unless its length is the 65558 + 2 × depth bytes of the layout (log entry 9). -/
def Snapshot.ofBytes? : List Byte → Option Snapshot
  | p0 :: p1 :: d0 :: d1 :: d2 :: d3 :: rest =>
    let depth := countOfBytes d0 d1 d2 d3
    if rest.length = 2 * depth + 65552 then
      let units := unitsOfBytes rest
      some { pc := unitOfBytes p0 p1, stack := units.take depth, mem := Memory.ofCellsFrom 0 (units.drop depth) }
    else none
  | _ => none

end Sys2Proof.Machine
end

