-- ==== Sys2Proof/Machine/Step.lean ====
section
/-! DEFINITION. One step of the machine (40_step_and_resolve.md R70, R78). -/

namespace Sys2Proof.Machine

/-- A running engine fetches and executes one instruction (R70). A waiting engine takes no step of its own: the next host
action takes effect (R78, R146). A stopped engine takes no step, ever: the state stays as it is (R78, log entry 3). -/
def step (s : State) : Host.Outcome State Fault Refusal :=
  match s.status with
  | .running =>
    match fetch s with
    | .stopped t => .next t
    | .run i t => exec i t
  | .waitInput latchA => .next (s.serveWait latchA)
  | .halted => .next s
  | .faulted _ _ => .next s

/-- The state with the instruction of the given opcode-table bits placed where `step` fetches (log entry 10). -/
def State.withFetchWord (s : State) (nbits w : Nat) : State := placeAtPc s nbits w

end Sys2Proof.Machine
end

