-- ==== Sys2Proof/Machine/Overlay.lean ====
section
/-! DEFINITION. The agent behind the input port: the overlay with its pending line and its five commands, and the whole
virtual machine made of the overlay and the block (50_interfaces.md R148, R149, R156). It is outside the block (R3); `core`
does not use it. -/

namespace Sys2Proof.Machine

/-- The overlay's own state (R148, R149): none of it is state of the block. -/
structure Overlay where
  /-- The lines the input source will still give, without their ends. -/
  lines : List (List CodeUnit)
  /-- The pending input line: characters read and not yet consumed (R149). -/
  pending : List CodeUnit
  /-- The snapshot file: one file, which `!save` writes and `!load` reads (DESIGN CHOICE, log entry 20). -/
  snapshotFile : Option (List Byte)
  /-- The side file of `!dump`; one file (DESIGN CHOICE, log entry 20). -/
  dumpFile : Option (List Byte)
  /-- Whether the coming file accesses of `!dump`, `!save` and `!load` fail, first one first: an I/O fault of R156 is an input
  here. With none listed an access succeeds (DESIGN CHOICE, log entry 19). -/
  fileFaults : List Bool
  deriving DecidableEq, Repr

/-- The recognised commands (R148). -/
inductive Command where
  | halt
  | dump
  | save
  | load
  | set (addr value : CodeUnit)
  /-- `!set` with arguments that are not two unsigned 16-bit decimals: reported, no effect (log entry 8). -/
  | malformedSet
  deriving DecidableEq, Repr

/-! ### Reading a line: the character codes are ASCII, PRESUMED (log entry 7) -/

/-- The newline appended to every line (R148, G2 of 93_implementation_defined.md; log entry 7). -/
def newlineUnit : CodeUnit := 10#16

/-- White space: space, tab, line feed, carriage return (log entry 8). -/
def isSpaceUnit (c : CodeUnit) : Bool := c == 32#16 || c == 9#16 || c == 10#16 || c == 13#16

/-- The white-space-delimited tokens of a line; `current` is the token being read, last character first. -/
def tokensFrom (current : List CodeUnit) : List CodeUnit → List (List CodeUnit)
  | [] => if current.isEmpty then [] else [current.reverse]
  | c :: rest =>
    if isSpaceUnit c then
      if current.isEmpty then tokensFrom [] rest else current.reverse :: tokensFrom [] rest
    else tokensFrom (c :: current) rest

/-- An unsigned decimal, digits only. -/
def decimalFrom (n : Nat) : List CodeUnit → Option Nat
  | [] => some n
  | c :: rest => if 48 ≤ c.toNat ∧ c.toNat ≤ 57 then decimalFrom (10 * n + (c.toNat - 48)) rest else none

/-- An unsigned 16-bit decimal (R151). -/
def decimalUnit? (token : List CodeUnit) : Option CodeUnit :=
  if token.isEmpty then none
  else match decimalFrom 0 token with
    | some n => if n < 65536 then some (BitVec.ofNat 16 n) else none
    | none => none

/-- The command of a line whose first token is one of the five command words; none for any other line, which is guest input
(R148). -/
def parseCommand (line : List CodeUnit) : Option Command :=
  match tokensFrom [] line with
  | [] => none
  | word :: args =>
    if word = [33#16, 104#16, 97#16, 108#16, 116#16] then some .halt          -- !halt
    else if word = [33#16, 100#16, 117#16, 109#16, 112#16] then some .dump    -- !dump
    else if word = [33#16, 115#16, 97#16, 118#16, 101#16] then some .save     -- !save
    else if word = [33#16, 108#16, 111#16, 97#16, 100#16] then some .load     -- !load
    else if word = [33#16, 115#16, 101#16, 116#16] then                       -- !set
      match args with
      | [a, v] =>
        match decimalUnit? a, decimalUnit? v with
        | some addr, some value => some (.set addr value)
        | _, _ => some .malformedSet
      | _ => some .malformedSet
    else none

/-! ### Answering the block's request -/

/-- A command's use of a file (R156, log entry 19): if the access fails the command does nothing more, else it goes on. -/
def Overlay.withFile (o : Overlay) (go : Overlay → Overlay × Option HostAction) : Overlay × Option HostAction :=
  match o.fileFaults with
  | true :: rest => ({ o with fileFaults := rest }, none)
  | false :: rest => go { o with fileFaults := rest }
  | [] => go o

/-- A command's effect on the overlay's files and the host action it performs on the block, if any. A command that fails
performs none and leaves the files as they were (R148, R152, R156; log entry 19). A later `!save` or `!dump` replaces what the
file held (DESIGN CHOICE, log entry 20). -/
def Overlay.runCommand (o : Overlay) (s : State) : Command → Overlay × Option HostAction
  | .halt => (o, some .halt)
  | .dump => o.withFile fun o => ({ o with dumpFile := some s.mem.dumpBytes }, some .dump)
  | .save => o.withFile fun o =>
    match s.snapshot.toBytes? with
    | some bytes => ({ o with snapshotFile := some bytes }, some .save)
    | none => (o, none)
  | .load => o.withFile fun o =>
    match o.snapshotFile.bind Snapshot.ofBytes? with
    | some snap => (o, some (.restore snap))
    | none => (o, none)
  | .set addr value => (o, some (.poke addr value))
  | .malformedSet => (o, none)

/-- One move of the overlay while the block waits: the first pending character is delivered; with none pending one line is
read, a command is carried out and never shown to the guest, any other line becomes pending with a newline after it
(R148, R149). With no line to read nothing happens. -/
def Overlay.answer (o : Overlay) (s : State) : Overlay × Option HostAction :=
  match o.pending with
  | c :: rest => ({ o with pending := rest }, some (.deliver c))
  | [] =>
    match o.lines with
    | [] => (o, none)
    | line :: rest =>
      match parseCommand line with
      | some command => Overlay.runCommand { o with lines := rest } s command
      | none => ({ o with lines := rest, pending := line ++ [newlineUnit] }, none)

/-- The whole virtual machine. -/
structure Vm where
  overlay : Overlay
  block : State
  deriving DecidableEq, Repr

/-- One move of the whole virtual machine: the overlay's while the block waits with no host action queued, else the block's
step. -/
def Vm.step (vm : Vm) : Host.Outcome Vm Fault Refusal :=
  match vm.block.status, vm.block.hostQueue with
  | .waitInput latchA, [] =>
    let (overlay, action) := vm.overlay.answer vm.block
    .next { overlay := overlay, block := match action with
      | some a => vm.block.hostAct latchA a
      | none => vm.block }
  | _, _ =>
    match Sys2Proof.Machine.step vm.block with
    | .next t => .next { vm with block := t }
    | .fault r => .fault r
    | .refused r => .refused r

end Sys2Proof.Machine
end

