-- ==== Sys2Proof/Machine/Feed.lean ====
section
/-! DEFINITION. Runs fed from outside: before each step something arrives at the ports. What arrives is a function of the step's
number, so an input may be endless, finite or delayed at will (50_interfaces.md R144, R145; 40_step_and_resolve.md R79). It is an
argument of the run and no part of a state, which stays plain data. -/

namespace Sys2Proof.Machine

/-- `n` steps of a machine, before the `k`-th of which `arrivals k` arrives. -/
def fedRun {σ α φ ρ : Type} (step : σ → Host.Outcome σ φ ρ) (arrive : σ → α → σ) (arrivals : Nat → α) :
    Nat → σ → Host.Outcome σ φ ρ
  | 0, s => .next s
  | n + 1, s =>
    match fedRun step arrive arrivals n s with
    | .next t => step (arrive t (arrivals n))
    | .fault r => .fault r
    | .refused r => .refused r

/-- Input answers and host actions arrive: they are served after those that have arrived before (DESIGN CHOICE, log entry
17). -/
def State.arrive (s : State) (actions : List HostAction) : State := { s with hostQueue := s.hostQueue ++ actions }

/-- A run of the block under any input (R145). -/
def State.fedRun (arrivals : Nat → List HostAction) (n : Nat) (s : State) : Result :=
  Sys2Proof.Machine.fedRun step State.arrive arrivals n s

/-- The answers of the input port alone, one before each step: R145's "any sequence of `CodeUnit`s, possibly finite". Where the
sequence has ended (`none`) nothing arrives. -/
def answersOnly (answers : Nat → Option CodeUnit) (n : Nat) : List HostAction :=
  match answers n with
  | some v => [.deliver v]
  | none => []

/-- What arrives at the overlay: further input lines, and further outcomes of file accesses (R148, R156). -/
structure OverlayArrival where
  lines : List (List CodeUnit)
  fileFaults : List Bool
  deriving DecidableEq, Repr

def Vm.arrive (vm : Vm) (a : OverlayArrival) : Vm :=
  { vm with overlay := { vm.overlay with
      lines := vm.overlay.lines ++ a.lines
      fileFaults := vm.overlay.fileFaults ++ a.fileFaults } }

/-- A run of the whole virtual machine under any sequence of input lines. -/
def Vm.fedRun (arrivals : Nat → OverlayArrival) (n : Nat) (vm : Vm) : Host.Outcome Vm Fault Refusal :=
  Sys2Proof.Machine.fedRun Vm.step Vm.arrive arrivals n vm

end Sys2Proof.Machine
end

