-- ==== Sys2Proof/Safety.lean ====
section
/-! DEFINITION. The terms claims are stated in: the invariant, the ways a run ends, where an instruction stands, and what a
step leaves unchanged. -/

namespace Sys2Proof.Machine

/-- A host action that carries a memory carries one in canonical form. -/
def HostAction.wf : HostAction → Bool
  | .restore snap => Memory.wf snap.mem
  | _ => true

/-- The invariant: memory is in canonical form, and so is every memory the host is still going to restore. -/
def State.inv (s : State) : Bool := Memory.wf s.mem && s.hostQueue.all HostAction.wf

/-- The states that steps lead to from `s`, under any input that arrives between them (R145). -/
inductive Reaches (s : State) : State → Prop where
  | refl : Reaches s s
  | step {t u : State} : Reaches s t → Sys2Proof.Machine.step t = .next u → Reaches s u
  | arrive {t : State} (actions : List HostAction) : Reaches s t → Reaches s (t.arrive actions)

/-- A run has ended normally exactly when the status is `Halted` (R79). -/
def State.endedNormally (s : State) : Prop := s.status = .halted

/-- A run has ended abnormally exactly when the status is `Faulted` (R79). -/
def State.endedAbnormally (s : State) : Prop := ∃ cause info, s.status = .faulted cause info

/-- A run from `s` is safe when no state it leads to is faulted. -/
def SafeFrom (s : State) : Prop := ∀ t, Reaches s t → ¬ t.endedAbnormally

/-- The engine runs, and the cells of instruction `i` stand at the pc, below the fetch limit (R50, R71). -/
def AtInstr (i : Instr) (s : State) : Prop :=
  s.status = .running ∧ s.pc.toNat + cellCount i ≤ 32768 ∧
    ∀ k, k < cellCount i → s.mem.lookup (s.pc.toNat + k) = (encode i).getD k 0#16

/-- The value of a valid source slot (R72): a literal is itself, a register reference the contents of that cell. -/
def sourceValue (s : State) (u : CodeUnit) : CodeUnit :=
  if u.toNat ≤ 32767 then u else s.mem.lookup u.toNat

/-- The cell an instruction writes, if it writes one: the raw address in its destination slot (R73), or the address slot `a` of
`wmem` resolves to (R121). None where that is no address (the instruction then faults) and for the other instructions. -/
def storedAddr? (s : State) : Instr → Option Addr
  | .wmem a _ => addrOf? (sourceValue s a)
  | .set a _ | .pop a | .not a _ | .rmem a _ | .inp a => addrOf? a
  | .eq a _ _ | .gt a _ _ | .add a _ _ | .mult a _ _ | .mod a _ _ | .and a _ _ | .or a _ _ => addrOf? a
  | .halt | .push _ | .jmp _ | .jt _ _ | .jf _ _ | .call _ | .ret | .out _ | .noop => none

/-- Every cell of memory reads the same after as before; the registers are among the cells (R12). -/
def SameMemory (s t : State) : Prop := ∀ x : Addr, t.read x = s.read x

/-- The cell at `a` reads `v` after, and every other cell reads as before. -/
def StoredAt (s t : State) (a : Nat) (v : CodeUnit) : Prop :=
  ∀ x : Addr, t.read x = if x.val = a then v else s.read x

end Sys2Proof.Machine
end

