-- ==== Sys2Proof/Certificates/Slice0/Obligations.lean ====
section
/-! DEFINITION. The statements for the provers. Each docstring names the rule of the spec it formalises; where a clause rests on a
decision of the spec (92_eei_decisions.md) or on a log entry of the model, the docstring names it. -/

open Sys2Proof Sys2Proof.Machine

/-! ### Encoding -/

/-- R50, R52, R53, R54: decoding the cells of a well-formed instruction gives it back, whatever cells follow. -/
def Obligations.DecodeOfEncode : Prop :=
  ∀ (i : Instr) (rest : List CodeUnit), i.wellFormed = true → decode (encode i ++ rest) = .ok (i, rest)

/-- R50, R53, R58: what the decoder accepts is a well-formed instruction, and the cells it took are that instruction's. -/
def Obligations.EncodeOfDecode : Prop :=
  ∀ (i : Instr) (cells rest : List CodeUnit), decode cells = .ok (i, rest) →
    i.wellFormed = true ∧ cells = encode i ++ rest

/-- R53 on words written out from the table: one per format of R52. -/
def Obligations.SampleWordsDecode : Prop :=
  decode [18#16] = .ok (.ret, []) ∧
  decode [6#16, 0x8000#16] = .ok (.jmp 0x8000#16, []) ∧
  decode [20#16, 0x8007#16] = .ok (.inp 0x8007#16, []) ∧
  decode [15#16, 0x8001#16, 3#16] = .ok (.rmem 0x8001#16 3#16, []) ∧
  decode [16#16, 100#16, 7#16] = .ok (.wmem 100#16 7#16, []) ∧
  decode [9#16, 0x8000#16, 0x7FFF#16, 0x8002#16] = .ok (.add 0x8000#16 0x7FFF#16 0x8002#16, [])

/-- R57: an opcode cell of 22..65535 raises `UnknownOpcode` with that value, whatever stands in any other cell; the pc stays. -/
def Obligations.UnknownOpcodeFaults : Prop :=
  ∀ s : State, s.status = .running → s.pc.toNat ≤ 32767 → 21 < (s.mem.lookup s.pc.toNat).toNat →
    ∃ t, step s = .next t ∧ t.status = .faulted .unknownOpcode (s.mem.lookup s.pc.toNat) ∧ t.pc = s.pc

/-- R74 (decision D4): the rejected slot is the first whose value is above 32775, by its kind, with its value. -/
def Obligations.FirstInvalidSlotIsReported : Prop :=
  ∀ (slots : List (SlotKind × CodeUnit)) (e : DecodeError), firstSlotError slots = some e ↔
    ∃ before kind u after, slots = before ++ (kind, u) :: after ∧ (∀ p ∈ before, p.2.toNat ≤ 32775) ∧ 32775 < u.toNat ∧
      e = match kind with
        | .dest => .addressOutOfRange u
        | .source => .invalidOperand u

/-- R58, R74 (decisions D4, D11): an instruction with an invalid slot is rejected by the decoder. That its meaning, which by R70 no
step reaches, is that same fault and nothing else is the model's choice (log entry 14). -/
def Obligations.InvalidSlotStopsInstruction : Prop :=
  ∀ (i : Instr) (s : State) (rest : List CodeUnit) (e : DecodeError), firstSlotError (slotsOf i) = some e →
    decode (encode i ++ rest) = .error e ∧ exec i s = .next (s.raiseDecodeError e)

/-! ### The step -/

/-- R70: when the cells at the pc of a running engine are a well-formed instruction, the step is the execution of that
instruction in the state with the cycle counted. -/
def Obligations.StepRunsDecodedInstruction : Prop :=
  ∀ (i : Instr) (s : State), i.wellFormed = true → AtInstr i s → step s = exec i s.count

/-- R70 point 7, R74, R171, R172 (decisions D4, D9): with an invalid slot the step counts the cycle and raises the decoder's fault:
`InvalidOperand` for a source slot and `AddressOutOfRange` for a destination slot, with the first invalid slot's value. -/
def Obligations.StepFaultsOnInvalidSlot : Prop :=
  ∀ (i : Instr) (s : State), AtInstr i s →
    (∀ e, firstSlotError (slotsOf i) = some e → step s = .next (s.count.raiseDecodeError e)) ∧
    (∀ before kind u after, slotsOf i = before ++ (kind, u) :: after → (∀ p ∈ before, p.2.toNat ≤ 32775) → 32775 < u.toNat →
      step s = .next { s with
        cycles := s.cycles + 1
        status := match kind with
          | .dest => .faulted .addressOutOfRange u
          | .source => .faulted .invalidOperand u })

/-- R71 (decision D3): a pc of 32768 or more faults before anything is read, with the cycle not counted. -/
def Obligations.PcPastLimitFaultsUncounted : Prop :=
  ∀ s : State, s.status = .running → 32768 ≤ s.pc.toNat →
    step s = .next { s with status := .faulted .pcOutOfRange s.pc }

/-- R71 (decisions D3, D19): an instruction whose last slot would lie at or above 32768 faults, with the cycle counted. -/
def Obligations.SlotsPastLimitFaultCounted : Prop :=
  ∀ (i : Instr) (s : State), s.status = .running → s.pc.toNat ≤ 32767 → 32768 < s.pc.toNat + cellCount i →
    s.mem.lookup s.pc.toNat = (encode i).headD 0#16 →
    step s = .next { s with cycles := s.cycles + 1, status := .faulted .pcOutOfRange s.pc }

/-- R78: a stopped engine takes no step, ever; a waiting engine takes none either, stays as it is while nothing comes (decision D14)
and goes on exactly when the input port delivers, as R131 says. That the model's `step` then answers the same state again is the model's choice (log entry 3); so is
the free value the pc holds where the pc plus 2 does not fit (log entry 6). -/
def Obligations.StoppedOrWaitingTakesNoStep : Prop :=
  (∀ s : State, s.status = .halted → step s = .next s) ∧
  (∀ (s : State) (c : Cause) (v : CodeUnit), s.status = .faulted c v → step s = .next s) ∧
  (∀ (s t : State) (d : Addr), s.status = .waitInput d → step s = .next t →
    t.cycles = s.cycles ∧ t.output = s.output ∧
      (t.status = .running ↔ ∃ v rest, s.hostQueue = .deliver v :: rest)) ∧
  (∀ (s : State) (d : Addr), s.status = .waitInput d → s.hostQueue = [] → step s = .next s) ∧
  (∀ (s : State) (d : Addr) (v : CodeUnit) (rest : List HostAction), s.status = .waitInput d →
    s.hostQueue = .deliver v :: rest → step s = .next ({ s with hostQueue := rest }.completeInput d v))

/-- R79, R145: the step is a function that always has an answer, and so has every run under any input, an endless one too: after any
number of steps there is one next state, and the input is served in order, nothing lost and nothing repeated. With an endless
sequence of answers a waiting engine goes on at its next step. That the answer is a next state for a stopped engine too, and never
a fault or a refusal of the model, is the model's choice (log entry 3), and so is that what arrives is served last (log entry 17). -/
def Obligations.StepAlwaysAnswersNext : Prop :=
  (∀ s : State, ∃ t, step s = .next t) ∧
  (∀ (arrivals : Nat → List HostAction) (n : Nat) (s : State), ∃ t served, s.fedRun arrivals n = .next t ∧
    s.hostQueue ++ (List.range n).flatMap arrivals = served ++ t.hostQueue ∧ served.length ≤ n) ∧
  (∀ (answers : Nat → Option CodeUnit) (n : Nat) (s t : State) (d : Addr) (v : CodeUnit),
    s.fedRun (answersOnly answers) n = .next t → t.status = .waitInput d → t.hostQueue = [] → answers n = some v →
    ∃ u, s.fedRun (answersOnly answers) (n + 1) = .next u ∧ u.status = .running ∧ u.read d = v) ∧
  (∀ (arrivals : Nat → OverlayArrival) (n : Nat) (vm : Vm), ∃ vm', vm.fedRun arrivals n = .next vm')

/-- R172 (decision D4): when a step of a running engine faults, memory, pc, stack, output and the host's actions are as before;
only the cycle counter has moved, unless the pc itself was out of range. -/
def Obligations.FaultsArePrecise : Prop :=
  ∀ (s t : State) (c : Cause) (v : CodeUnit), s.status = .running → step s = .next t → t.status = .faulted c v →
    t = { s with status := .faulted c v, cycles := if s.pc.toNat ≤ 32767 then s.cycles + 1 else s.cycles }

/-- R19, R70 point 3 (decision D19): each step that reads an opcode cell counts one cycle, and nothing else counts. -/
def Obligations.CyclesCountFetches : Prop :=
  ∀ s t : State, step s = .next t →
    t.cycles = if s.status = .running ∧ s.pc.toNat ≤ 32767 then s.cycles + 1 else s.cycles

/-- R43, R73, R121: no step of a running engine changes any cell but the one its instruction stores to: the destination slot's
address, or for `wmem` the address slot `a` resolves to; a step that faults, suspends or stops changes no cell, and neither does
one at whose pc no instruction stands. -/
def Obligations.AtMostOneCellChanges : Prop :=
  ∀ s t : State, s.status = .running → step s = .next t →
    (∀ i, AtInstr i s → ∀ x : Addr, storedAddr? s i ≠ some x → t.read x = s.read x) ∧
    (t.status ≠ .running → t.mem = s.mem) ∧
    ((∀ i, ¬ AtInstr i s) → t.mem = s.mem)

/-- R26, R130, R142: the output stream changes only by an `out` instruction, which appends one code unit, the value of its
slot. -/
def Obligations.OutputGrowsOnlyByOut : Prop :=
  ∀ s t : State, step s = .next t → t.output ≠ s.output →
    ∃ a : CodeUnit, a.toNat ≤ 32775 ∧ AtInstr (.out a) s ∧ t.output = s.output ++ [sourceValue s a]

/-- R16: while the engine runs, the stack changes only by `push`, `pop`, `call` and `ret`. -/
def Obligations.StackChangesOnlyByStackInstructions : Prop :=
  ∀ s t : State, s.status = .running → step s = .next t → t.stack ≠ s.stack →
    s.mem.lookup s.pc.toNat ∈ [2#16, 3#16, 17#16, 18#16]

/-- R15, R77: an instruction that is no jump, call or return and does not fault or suspend leaves the pc after its own cells. -/
def Obligations.PcAdvancesByCellCount : Prop :=
  ∀ (i : Instr) (s t : State), s.status = .running → s.pc.toNat + cellCount i ≤ 32768 → exec i s = .next t →
    t.status = .running ∨ t.status = .halted →
    match i with
    | .jmp _ | .jt _ _ | .jf _ _ | .call _ | .ret => True
    | _ => t.pc.toNat = s.pc.toNat + cellCount i

/-- R177: the engine becomes `Halted` in exactly three ways: `halt`, `ret` with an empty stack, a host halt while it waits. -/
def Obligations.NormalEndsAreThree : Prop :=
  ∀ s t : State, s.status ≠ .halted → step s = .next t →
    (t.status = .halted ↔
      AtInstr .halt s ∨ (AtInstr .ret s ∧ s.stack = []) ∨
        ((∃ d, s.status = .waitInput d) ∧ ∃ rest, s.hostQueue = .halt :: rest))

/-- R10, R27, R33: every step keeps memory, and the memories of the restores still to come, in canonical form with addresses
0..32775. The canonical form is the model's own (log entry 1). -/
def Obligations.StepKeepsInvariant : Prop :=
  ∀ s t : State, s.inv = true → step s = .next t → t.inv = true

/-- The invariant, which is the model's own canonical form (log entry 1), holds at reset. -/
def Obligations.ResetMeetsInvariant : Prop := State.reset.inv = true

/-- R27, R200 (decision D8): what the reset event leaves, from any state. -/
def Obligations.ResetEventValues : Prop :=
  ∀ s : State, (s.resetEvent.pc = 0#16 ∧ s.resetEvent.stack = [] ∧ s.resetEvent.cycles = 0 ∧
    s.resetEvent.status = .running ∧ (∀ x : Addr, s.resetEvent.read x = 0#16) ∧ s.resetEvent.output = s.output) ∧
    State.reset.resetEvent = State.reset

/-- R19, R26: the cycle counter and the output already emitted are never read: with another counter and another past output a step
counts the same cycles, appends the same output and does the same to everything else. -/
def Obligations.CyclesAndOutputAreNeverRead : Prop :=
  ∀ (s t : State) (n : Nat) (out : List CodeUnit), step s = .next t →
    ∃ t' counted emitted, step { s with cycles := n, output := out } = .next t' ∧
      t.cycles = s.cycles + counted ∧ t'.cycles = n + counted ∧
      t.output = s.output ++ emitted ∧ t'.output = out ++ emitted ∧
      t = { t' with cycles := t.cycles, output := t.output }

/-! ### Operands -/

/-- R72 (decision D2): a literal resolves to itself, a register reference to the register's 16 bits, anything else to nothing. -/
def Obligations.ResolverRule : Prop :=
  ∀ s : State,
    (∀ u : CodeUnit, u.toNat ≤ 32767 → s.resolve? u = some u) ∧
    (∀ r : RegNum, s.resolve? (BitVec.ofNat 16 (32768 + r.val)) = some (s.reg r)) ∧
    (∀ u : CodeUnit, 32775 < u.toNat → s.resolve? u = none)

/-- R72, R90 (S2): a register written by `set` resolves to the value written. -/
def Obligations.SetThenResolve : Prop :=
  ∀ (s : State) (r : RegNum) (b : CodeUnit), b.toNat ≤ 32775 →
    ∃ t, exec (.set (BitVec.ofNat 16 (32768 + r.val)) b) s = .next t ∧
      t.resolve? (BitVec.ofNat 16 (32768 + r.val)) = some (sourceValue s b)

/-- R12 (decision D12): a register and the cell at 32768 + its number are one storage, for `wmem` and for `rmem`. -/
def Obligations.RegistersAreCells : Prop :=
  ∀ (s : State) (r : RegNum) (a b : CodeUnit), a.toNat ≤ 32775 → b.toNat ≤ 32775 →
    (sourceValue s a).toNat = 32768 + r.val →
    (∃ t, exec (.wmem a b) s = .next t ∧ t.reg r = sourceValue s b) ∧
    (∃ t, exec (.rmem b a) s = .next t ∧ ∀ d : Addr, d.val = b.toNat → t.read d = s.reg r)

/-! ### set, push, pop -/

/-- R90 (decision D2): `set` copies all 16 bits of its source to its destination and changes nothing else but the pc. -/
def Obligations.SetResult : Prop :=
  ∀ (s : State) (a b : CodeUnit), a.toNat ≤ 32775 → b.toNat ≤ 32775 →
    ∃ t, exec (.set a b) s = .next t ∧ StoredAt s t a.toNat (sourceValue s b) ∧
      t = { s with mem := t.mem, pc := s.pc + 3#16 }

/-- R91, R17, R18 (decision D5, unbounded stack): `push` appends its source's value and changes nothing else but the pc. -/
def Obligations.PushResult : Prop :=
  ∀ (s : State) (a : CodeUnit), a.toNat ≤ 32775 →
    exec (.push a) s = .next { s with stack := s.stack ++ [sourceValue s a], pc := s.pc + 2#16 }

/-- R92, R17: `pop` moves the top entry to its destination; on an empty stack it raises `StackUnderflow` and nothing else
changes. -/
def Obligations.PopResult : Prop :=
  ∀ (s : State) (a : CodeUnit), a.toNat ≤ 32775 →
    (∀ rest v, s.stack = rest ++ [v] →
      ∃ t, exec (.pop a) s = .next t ∧ StoredAt s t a.toNat v ∧
        t = { s with mem := t.mem, stack := rest, pc := s.pc + 2#16 }) ∧
    (s.stack = [] → exec (.pop a) s = .next { s with status := .faulted .stackUnderflow 0#16 })

/-- R91, R92 (S4): `push` and then `pop` of one register leaves the stack and every cell as they were. -/
def Obligations.PushThenPopRestores : Prop :=
  ∀ (s : State) (r : RegNum), ∃ t u,
    exec (.push (BitVec.ofNat 16 (32768 + r.val))) s = .next t ∧
    exec (.pop (BitVec.ofNat 16 (32768 + r.val))) t = .next u ∧ u.stack = s.stack ∧ SameMemory s u

/-- R18 (decision D5): in a build of finite capacity a push on a full stack raises `StackOverflow`; below the capacity it
goes on. -/
def Obligations.FiniteStackOverflows : Prop :=
  ∀ (capacity : Nat) (s : State) (v : CodeUnit) (go : State → Result),
    (s.depth = capacity → withPushIn (some capacity) v s go = .next { s with status := .faulted .stackOverflow 0#16 }) ∧
    (s.depth < capacity → withPushIn (some capacity) v s go = go { s with stack := s.stack ++ [v] })

/-! ### eq, gt -/

/-- R100, R101 (decision D2): the comparisons write exactly 1 or exactly 0, comparing all 16 bits as unsigned numbers, and change
nothing else but the pc. -/
def Obligations.CompareResults : Prop :=
  ∀ (s : State) (a b c : CodeUnit), a.toNat ≤ 32775 → b.toNat ≤ 32775 → c.toNat ≤ 32775 →
    (∃ t, exec (.eq a b c) s = .next t ∧
      StoredAt s t a.toNat (if (sourceValue s b).toNat = (sourceValue s c).toNat then 1#16 else 0#16) ∧
      t = { s with mem := t.mem, pc := s.pc + 4#16 }) ∧
    (∃ t, exec (.gt a b c) s = .next t ∧
      StoredAt s t a.toNat (if (sourceValue s b).toNat > (sourceValue s c).toNat then 1#16 else 0#16) ∧
      t = { s with mem := t.mem, pc := s.pc + 4#16 })

/-! ### jmp, jt, jf -/

/-- R105: `jmp` sets the pc to its source's value, whole and unchecked, and changes nothing else. -/
def Obligations.JmpResult : Prop :=
  ∀ (s : State) (a : CodeUnit), a.toNat ≤ 32775 → exec (.jmp a) s = .next { s with pc := sourceValue s a }

/-- R106, R107 (decision D11 for the untaken target): the conditional jumps test all 16 bits of slot `a` against zero and change
nothing but the pc. -/
def Obligations.ConditionalJumpResults : Prop :=
  ∀ (s : State) (a b : CodeUnit), a.toNat ≤ 32775 → b.toNat ≤ 32775 →
    exec (.jt a b) s = .next { s with pc := if (sourceValue s a).toNat ≠ 0 then sourceValue s b else s.pc + 3#16 } ∧
    exec (.jf a b) s = .next { s with pc := if (sourceValue s a).toNat = 0 then sourceValue s b else s.pc + 3#16 }

/-! ### The arithmetic unit -/

/-- R111: `add` writes the exact sum modulo 32768 and changes nothing else but the pc. -/
def Obligations.AddResult : Prop :=
  ∀ (s : State) (a b c : CodeUnit), a.toNat ≤ 32775 → b.toNat ≤ 32775 → c.toNat ≤ 32775 →
    ∃ t v, exec (.add a b c) s = .next t ∧ StoredAt s t a.toNat v ∧
      v.toNat = ((sourceValue s b).toNat + (sourceValue s c).toNat) % 32768 ∧
      t = { s with mem := t.mem, pc := s.pc + 4#16 }

/-- R112: `mult` writes the exact product modulo 32768 and changes nothing else but the pc. -/
def Obligations.MultResult : Prop :=
  ∀ (s : State) (a b c : CodeUnit), a.toNat ≤ 32775 → b.toNat ≤ 32775 → c.toNat ≤ 32775 →
    ∃ t v, exec (.mult a b c) s = .next t ∧ StoredAt s t a.toNat v ∧
      v.toNat = ((sourceValue s b).toNat * (sourceValue s c).toNat) % 32768 ∧
      t = { s with mem := t.mem, pc := s.pc + 4#16 }

/-- R113: `mod` writes the remainder masked to 15 bits; a zero divisor raises `DivideByZero` and nothing else changes. -/
def Obligations.ModResult : Prop :=
  ∀ (s : State) (a b c : CodeUnit), a.toNat ≤ 32775 → b.toNat ≤ 32775 → c.toNat ≤ 32775 →
    ((sourceValue s c).toNat ≠ 0 →
      ∃ t v, exec (.mod a b c) s = .next t ∧ StoredAt s t a.toNat v ∧
        v.toNat = ((sourceValue s b).toNat % (sourceValue s c).toNat) % 32768 ∧
        t = { s with mem := t.mem, pc := s.pc + 4#16 }) ∧
    ((sourceValue s c).toNat = 0 → exec (.mod a b c) s = .next { s with status := .faulted .divideByZero 0#16 })

/-- R114: `and` writes, in each of the bits 0..14, the conjunction of the sources' bits, and 0 in bit 15. -/
def Obligations.AndResult : Prop :=
  ∀ (s : State) (a b c : CodeUnit), a.toNat ≤ 32775 → b.toNat ≤ 32775 → c.toNat ≤ 32775 →
    ∃ t v, exec (.and a b c) s = .next t ∧ StoredAt s t a.toNat v ∧
      (∀ k < 15, v.getLsbD k = ((sourceValue s b).getLsbD k && (sourceValue s c).getLsbD k)) ∧ v.getLsbD 15 = false ∧
      t = { s with mem := t.mem, pc := s.pc + 4#16 }

/-- R115: `or` writes, in each of the bits 0..14, the disjunction of the sources' bits, and 0 in bit 15. -/
def Obligations.OrResult : Prop :=
  ∀ (s : State) (a b c : CodeUnit), a.toNat ≤ 32775 → b.toNat ≤ 32775 → c.toNat ≤ 32775 →
    ∃ t v, exec (.or a b c) s = .next t ∧ StoredAt s t a.toNat v ∧
      (∀ k < 15, v.getLsbD k = ((sourceValue s b).getLsbD k || (sourceValue s c).getLsbD k)) ∧ v.getLsbD 15 = false ∧
      t = { s with mem := t.mem, pc := s.pc + 4#16 }

/-- R116: `not` writes, in each of the bits 0..14, the complement of the source's bit, and 0 in bit 15; of a Word that is 32767
minus it. -/
def Obligations.NotResult : Prop :=
  ∀ (s : State) (a b : CodeUnit), a.toNat ≤ 32775 → b.toNat ≤ 32775 →
    ∃ t v, exec (.not a b) s = .next t ∧ StoredAt s t a.toNat v ∧
      (∀ k < 15, v.getLsbD k = !(sourceValue s b).getLsbD k) ∧ v.getLsbD 15 = false ∧
      ((sourceValue s b).toNat ≤ 32767 → v.toNat = 32767 - (sourceValue s b).toNat) ∧
      t = { s with mem := t.mem, pc := s.pc + 3#16 }

/-- R110 (S3; decision D2 for sources above 32767): whatever the sources hold, a computing instruction that does not fault leaves a
Word in its destination. -/
def Obligations.ComputedResultsAreWords : Prop :=
  ∀ (s t : State) (a b c : CodeUnit) (i : Instr),
    i ∈ [.add a b c, .mult a b c, .mod a b c, .and a b c, .or a b c, .not a b] → exec i s = .next t →
    (∃ cause info, t = s.raise cause info) ∨ ∃ d : Addr, d.val = a.toNat ∧ (t.read d).toNat ≤ 32767

/-! ### rmem, wmem -/

/-- R120 (decision D12): `rmem` copies the addressed cell whole; an effective address above 32775 raises `AddressOutOfRange` and
nothing else changes. -/
def Obligations.RmemResult : Prop :=
  ∀ (s : State) (a b : CodeUnit), a.toNat ≤ 32775 → b.toNat ≤ 32775 →
    (∀ e : Addr, e.val = (sourceValue s b).toNat →
      ∃ t, exec (.rmem a b) s = .next t ∧ StoredAt s t a.toNat (s.read e) ∧
        t = { s with mem := t.mem, pc := s.pc + 3#16 }) ∧
    (32775 < (sourceValue s b).toNat →
      exec (.rmem a b) s = .next { s with status := .faulted .addressOutOfRange (sourceValue s b) })

/-- R121 (decision D12): `wmem` stores all 16 bits at the address its slot `a` resolves to; an effective address above 32775 raises
`AddressOutOfRange` and nothing else changes. -/
def Obligations.WmemResult : Prop :=
  ∀ (s : State) (a b : CodeUnit), a.toNat ≤ 32775 → b.toNat ≤ 32775 →
    ((sourceValue s a).toNat ≤ 32775 →
      ∃ t, exec (.wmem a b) s = .next t ∧ StoredAt s t (sourceValue s a).toNat (sourceValue s b) ∧
        t = { s with mem := t.mem, pc := s.pc + 3#16 }) ∧
    (32775 < (sourceValue s a).toNat →
      exec (.wmem a b) s = .next { s with status := .faulted .addressOutOfRange (sourceValue s a) })

/-- R41, R73, R121: a store into the cell after the instruction, by `wmem` or by a destination write, is seen by the very next fetch:
the next step takes its opcode from the cell as it reads after the store. For `wmem` and `set` that is the value stored. -/
def Obligations.StoreIsSeenByNextFetch : Prop :=
  (∀ (i : Instr) (s t : State) (d : Addr), AtInstr i s → step s = .next t → t.status = .running → storedAddr? s i = some d →
    d.val = s.pc.toNat + cellCount i → d.val ≤ 32767 →
    t.pc.toNat = d.val ∧
    (∀ j : Instr, j.wellFormed = true → (encode j).headD 0#16 = t.read d → d.val + cellCount j ≤ 32768 →
      (∀ k, 1 ≤ k → k < cellCount j → s.mem.lookup (d.val + k) = (encode j).getD k 0#16) → step t = exec j t.count) ∧
    (21 < (t.read d).toNat → step t = .next (t.count.raise .unknownOpcode (t.read d)))) ∧
  (∀ (s : State) (a b : CodeUnit), AtInstr (.wmem a b) s → a.toNat ≤ 32775 → b.toNat ≤ 32775 →
    (sourceValue s a).toNat = s.pc.toNat + 3 → s.pc.toNat + 3 ≤ 32767 →
    ∃ t, step s = .next t ∧ StoredAt s t (s.pc.toNat + 3) (sourceValue s b) ∧
      t = { s with mem := t.mem, pc := s.pc + 3#16, cycles := s.cycles + 1 }) ∧
  (∀ (s : State) (a b : CodeUnit), AtInstr (.set a b) s → b.toNat ≤ 32775 →
    a.toNat = s.pc.toNat + 3 → s.pc.toNat + 3 ≤ 32767 →
    ∃ t, step s = .next t ∧ StoredAt s t (s.pc.toNat + 3) (sourceValue s b) ∧
      t = { s with mem := t.mem, pc := s.pc + 3#16, cycles := s.cycles + 1 })

/-! ### call, ret -/

/-- R125, R18 (decision D5, unbounded stack): `call` pushes the pc plus 2 and sets the pc to its source's value, whole and
unchecked. -/
def Obligations.CallResult : Prop :=
  ∀ (s : State) (a : CodeUnit), a.toNat ≤ 32775 →
    exec (.call a) s = .next { s with stack := s.stack ++ [s.pc + 2#16], pc := sourceValue s a }

/-- R126 (decision D10 for the pc of the halted state): `ret` pops the pc; on an empty stack it is a normal halt. -/
def Obligations.RetResult : Prop :=
  ∀ s : State,
    (∀ rest v, s.stack = rest ++ [v] → exec .ret s = .next { s with stack := rest, pc := v }) ∧
    (s.stack = [] → exec .ret s = .next { s with pc := s.pc + 1#16, status := .halted })

/-- R125, R126 (S5): `call` and then `ret` comes back to the cell after the `call` with the stack as it was. -/
def Obligations.CallThenRetReturns : Prop :=
  ∀ (s : State) (a : CodeUnit), a.toNat ≤ 32775 →
    ∃ t, exec (.call a) s = .next t ∧ exec .ret t = .next { s with pc := s.pc + 2#16 }

/-! ### out, in -/

/-- R130 (decision D13): `out` hands its source's 16 bits whole to the output port and changes nothing else but the pc. -/
def Obligations.OutResult : Prop :=
  ∀ (s : State) (a : CodeUnit), a.toNat ≤ 32775 →
    exec (.out a) s = .next { s with output := s.output ++ [sourceValue s a], pc := s.pc + 2#16 }

/-- R131, R144 (decision D14): `in` suspends with the destination latched, nothing written and the pc unmoved; with an answer at
hand it writes it and runs on. That it takes an answer at the head of the queue in the same step is the model's choice (log entry
15). The pc plus 2 is stated where it fits in 16 bits; beyond, it is a free value (log entry 6). -/
def Obligations.InResult : Prop :=
  ∀ (s : State) (a : CodeUnit) (d : Addr), d.val = a.toNat →
    (∀ v rest, s.hostQueue = .deliver v :: rest →
      ∃ t, exec (.inp a) s = .next t ∧ StoredAt s t a.toNat v ∧
        t = { s with mem := t.mem, pc := t.pc, status := .running, hostQueue := rest } ∧
        t.pc = if s.pc.toNat < 65534 then s.pc + 2#16 else Config.pcPastTop s.pc) ∧
    ((∀ v rest, s.hostQueue ≠ .deliver v :: rest) → exec (.inp a) s = .next { s with status := .waitInput d })

/-- R131, R22 (decision D15): when the port answers a waiting engine, the value goes to the latched destination, the pc as it is
then moves by 2, and the engine runs. The pc plus 2 is stated where it fits in 16 bits; beyond, it is a free value (log entry 6),
and everything else is as below it. -/
def Obligations.DeliveryCompletesInput : Prop :=
  ∀ (s : State) (d : Addr) (v : CodeUnit) (rest : List HostAction), s.status = .waitInput d →
    s.hostQueue = .deliver v :: rest →
    ∃ t, step s = .next t ∧ StoredAt s t d.val v ∧
      t = { s with mem := t.mem, pc := t.pc, status := .running, hostQueue := rest } ∧
      t.pc = if s.pc.toNat < 65534 then s.pc + 2#16 else Config.pcPastTop s.pc

/-! ### halt, noop -/

/-- R135: `halt` moves the pc by 1 and stops normally; memory, stack and output stay. -/
def Obligations.HaltResult : Prop :=
  ∀ s : State, exec .halt s = .next { s with pc := s.pc + 1#16, status := .halted }

/-- R136: `noop` changes the pc and the cycle counter and nothing else, at any pc up to 32767; after one at 32767 the next step
raises `PcOutOfRange`. -/
def Obligations.NoopResult : Prop :=
  ∀ s : State,
    exec .noop s = .next { s with pc := s.pc + 1#16 } ∧
    (AtInstr .noop s → step s = .next { s with pc := s.pc + 1#16, cycles := s.cycles + 1 }) ∧
    (AtInstr .noop s → s.pc.toNat = 32767 →
      ∃ t, step s = .next t ∧ t.pc = 32768#16 ∧ step t = .next (t.raise .pcOutOfRange 32768#16))

/-! ### The host port -/

/-- R155, R21, R22, R24, R171, R178 (decisions D9, D17, D18): what the status port shows of every state: never the latch, and the
fault record exactly when the engine has faulted; the hidden latch exists exactly in `WaitInput`; the codes and the classes of the
causes. -/
def Obligations.StatusPortAndFaultRecord : Prop :=
  (∀ s : State, s.statusPort.pc = s.pc ∧ s.statusPort.cycles = s.cycles ∧ s.statusPort.depth = s.stack.length ∧
    (∀ cause info, s.status = .faulted cause info →
      s.statusPort.status = .faulted ∧ s.statusPort.cause = some cause ∧ s.statusPort.info = some info) ∧
    ((∀ cause info, s.status ≠ .faulted cause info) → s.statusPort.cause = none ∧ s.statusPort.info = none) ∧
    (s.statusPort.status = .running ↔ s.status = .running) ∧ (s.statusPort.status = .halted ↔ s.status = .halted) ∧
    (s.statusPort.status = .waitInput ↔ ∃ d, s.status = .waitInput d) ∧
    (s.statusPort.status = .faulted ↔ ∃ cause info, s.status = .faulted cause info) ∧
    (∀ d, s.latchA? = some d ↔ s.status = .waitInput d) ∧
    (∀ d d', { s with status := .waitInput d }.statusPort = { s with status := .waitInput d' }.statusPort)) ∧
  [Cause.unknownOpcode, .invalidOperand, .addressOutOfRange, .pcOutOfRange, .stackUnderflow, .divideByZero,
    .stackOverflow].map Cause.code = [1, 2, 3, 4, 5, 6, 7] ∧
  (∀ c : Cause, (c.faultClass = some .malformedProgram ↔ c.code ∈ [2, 3, 4]) ∧ (c.faultClass = some .stackUnderflow ↔ c.code = 5) ∧
    (c.faultClass = some .arithmetic ↔ c.code = 6) ∧ (c.faultClass = some .unknownOpcode ↔ c.code = 1) ∧
    (c.faultClass = none ↔ c.code = 7))

/-- R150, R151, R152, R154 (decisions D10, D15, D22): what each host action does to a waiting engine, and what it leaves. -/
def Obligations.HostActionsWhileWaiting : Prop :=
  ∀ (s : State) (d : Addr) (rest : List HostAction), s.status = .waitInput d →
    (s.hostQueue = .halt :: rest → step s = .next { s with status := .halted, hostQueue := rest }) ∧
    (∀ addr value, s.hostQueue = .poke addr value :: rest → addr.toNat ≤ 32775 →
      ∃ t, step s = .next t ∧ StoredAt s t addr.toNat value ∧ t = { s with mem := t.mem, hostQueue := rest }) ∧
    (∀ addr value, s.hostQueue = .poke addr value :: rest → 32775 < addr.toNat →
      step s = .next { s with hostQueue := rest }) ∧
    (∀ snap, s.hostQueue = .restore snap :: rest →
      step s = .next { s with pc := snap.pc, stack := snap.stack, mem := snap.mem, hostQueue := rest }) ∧
    (s.hostQueue = .dump :: rest → step s = .next { s with hostQueue := rest }) ∧
    (s.hostQueue = .save :: rest → step s = .next { s with hostQueue := rest })

/-- R22, R38, R146, R152 (decision D15): whatever pokes, restores and reads come before it, the answer goes to the destination
latched when the `in` began, and the wait counts no cycle. -/
def Obligations.LatchSurvivesHostActions : Prop :=
  ∀ (s : State) (d : Addr) (acts rest : List HostAction) (v : CodeUnit), s.status = .waitInput d →
    s.hostQueue = acts ++ .deliver v :: rest → (∀ w, .deliver w ∉ acts) → .halt ∉ acts →
    ∃ t, core.run (acts.length + 1) s = .next t ∧ t.status = .running ∧ t.read d = v ∧ t.cycles = s.cycles ∧
      t.hostQueue = rest

/-- R205, R146 (decision D21): before the first step the loader puts code unit `k` of the image, low byte first, into cell `k`,
leaves every other cell and all other state, and refuses an image of more than 32768 code units; at any other time it refuses every
image. The window is open at reset and closed by every step, where a waiting engine has counted its `in`, which every step keeps.
How the window is read off the state is DEDUCED (log entry 18). -/
def Obligations.LoaderPlacesImage : Prop :=
  (∀ (s : State) (image : List Byte), s.beforeFirstStep = true →
    (image.length / 2 ≤ 32768 → ∃ t, s.loadImage image = some t ∧ t = { s with mem := t.mem } ∧
      ∀ x : Addr, (t.read x).toNat =
        if x.val < image.length / 2 then
          (image.getD (2 * x.val) 0#8).toNat + 256 * (image.getD (2 * x.val + 1) 0#8).toNat
        else (s.read x).toNat) ∧
    (32768 < image.length / 2 → s.loadImage image = none)) ∧
  (∀ (s : State) (image : List Byte), s.beforeFirstStep = false → s.loadImage image = none) ∧
  (∀ s : State, s.resetEvent.beforeFirstStep = true) ∧
  (∀ s t : State, (∀ d, s.status = .waitInput d → 0 < s.cycles) → step s = .next t →
    t.beforeFirstStep = false ∧ ∀ d, t.status = .waitInput d → 0 < t.cycles)

/-- R152, R153, R154 (S6; decision D20 for the byte order of the scalars): the file of a snapshot has 65558 + 2 × depth bytes: the pc
in bytes 0 and 1, the depth in bytes 2 to 5, the stack entries bottom first from byte 6 on, then the cells in address order, each of
them low byte first; and restoring what it holds at once leaves the state as it was. -/
def Obligations.SaveThenLoadIsIdentity : Prop :=
  ∀ s : State, Memory.wf s.mem = true → s.depth < 2 ^ 32 →
    ∃ bytes snap, s.snapshot.toBytes? = some bytes ∧ bytes.length = 65558 + 2 * s.depth ∧
      (bytes.getD 0 0#8).toNat + 256 * (bytes.getD 1 0#8).toNat = s.pc.toNat ∧
      (bytes.getD 2 0#8).toNat + 256 * (bytes.getD 3 0#8).toNat + 65536 * (bytes.getD 4 0#8).toNat +
        16777216 * (bytes.getD 5 0#8).toNat = s.depth ∧
      (∀ k, k < s.depth → (bytes.getD (6 + 2 * k) 0#8).toNat + 256 * (bytes.getD (7 + 2 * k) 0#8).toNat =
        (s.stack.getD k 0#16).toNat) ∧
      (∀ x : Addr, (bytes.getD (6 + 2 * s.depth + 2 * x.val) 0#8).toNat +
        256 * (bytes.getD (7 + 2 * s.depth + 2 * x.val) 0#8).toNat = (s.read x).toNat) ∧
      Snapshot.ofBytes? bytes = some snap ∧ s.restore snap = s

/-- R31, R153: the memory dump is 65552 bytes, each cell low byte first, in address order. -/
def Obligations.DumpIsLittleEndian : Prop :=
  ∀ m : Memory, m.dumpBytes.length = 65552 ∧ ∀ x : Addr,
    (m.dumpBytes.getD (2 * x.val) 0#8).toNat + 256 * (m.dumpBytes.getD (2 * x.val + 1) 0#8).toNat = (m.read x).toNat

/-- R148, R149: while the block waits, a pending character is delivered and the line shifted; with none pending, a line that is no
command becomes pending with a newline after it (its code is PRESUMED, log entry 7), and a command line never does. That a
malformed `!set` is kept from the guest as well, with no effect, is the model's choice (log entry 8). The commands are the host
actions of R150 to R154 (decision D22 for a `!set` above 32775): `!halt` stops the block, `!set` pokes one cell, `!load` restores a
readable snapshot, `!dump` and `!save` write their files and leave the block as it was. That a file access fails only where
`fileFaults` says so (log entry 19), and that there is one file of each kind, written anew each time (log entry 20), is the
model's choice. -/
def Obligations.OverlayFeedsTheGuest : Prop :=
  ∀ (vm : Vm) (d : Addr), vm.block.status = .waitInput d → vm.block.hostQueue = [] →
    (∀ c rest, vm.overlay.pending = c :: rest →
      vm.step = .next { overlay := { vm.overlay with pending := rest }, block := vm.block.completeInput d c }) ∧
    (∀ line rest, vm.overlay.pending = [] → vm.overlay.lines = line :: rest → parseCommand line = none →
      vm.step = .next { vm with overlay := { vm.overlay with lines := rest, pending := line ++ [newlineUnit] } }) ∧
    (∀ line rest command, vm.overlay.pending = [] → vm.overlay.lines = line :: rest → parseCommand line = some command →
      ∃ vm', vm.step = .next vm' ∧ vm'.overlay.pending = [] ∧ vm'.overlay.lines = rest ∧
        vm'.block.cycles = vm.block.cycles ∧
        (command = .malformedSet → vm'.block = vm.block) ∧
        vm'.block.status = (if command = .halt then .halted else .waitInput d)) ∧
    (∀ line rest, vm.overlay.pending = [] → vm.overlay.lines = line :: rest →
      (parseCommand line = some .halt →
        vm.step = .next { overlay := { vm.overlay with lines := rest }, block := { vm.block with status := .halted } }) ∧
      (∀ addr value, parseCommand line = some (.set addr value) → addr.toNat ≤ 32775 →
        ∃ t, StoredAt vm.block t addr.toNat value ∧ t = { vm.block with mem := t.mem } ∧
          vm.step = .next { overlay := { vm.overlay with lines := rest }, block := t }) ∧
      (∀ addr value, parseCommand line = some (.set addr value) → 32775 < addr.toNat →
        vm.step = .next { vm with overlay := { vm.overlay with lines := rest } })) ∧
    (∀ line rest, vm.overlay.pending = [] → vm.overlay.lines = line :: rest → vm.overlay.fileFaults.headD false = false →
      (parseCommand line = some .dump →
        vm.step = .next { vm with overlay := { vm.overlay with
          lines := rest, fileFaults := vm.overlay.fileFaults.tail, dumpFile := some vm.block.mem.dumpBytes } }) ∧
      (∀ bytes, parseCommand line = some .save → vm.block.snapshot.toBytes? = some bytes →
        vm.step = .next { vm with overlay := { vm.overlay with
          lines := rest, fileFaults := vm.overlay.fileFaults.tail, snapshotFile := some bytes } }) ∧
      (∀ bytes snap, parseCommand line = some .load → vm.overlay.snapshotFile = some bytes →
        Snapshot.ofBytes? bytes = some snap →
        vm.step = .next {
          overlay := { vm.overlay with lines := rest, fileFaults := vm.overlay.fileFaults.tail }
          block := { vm.block with pc := snap.pc, stack := snap.stack, mem := snap.mem } }))

/-- R156, R152: a `!load` with no snapshot file, or with one that does not hold a snapshot, leaves the block as it was; so does every
`!dump`, `!save` and `!load` whose file access fails. That a failed access leaves the files too is the model's choice (log entry
19), as is the length check of a snapshot file (log entry 9). -/
def Obligations.FailedLoadLeavesBlock : Prop :=
  ∀ (vm : Vm) (d : Addr) (line : List CodeUnit) (rest : List (List CodeUnit)), vm.block.status = .waitInput d →
    vm.block.hostQueue = [] → vm.overlay.pending = [] → vm.overlay.lines = line :: rest →
    (parseCommand line = some .load → vm.overlay.snapshotFile.bind Snapshot.ofBytes? = none →
      ∃ vm', vm.step = .next vm' ∧ vm'.block = vm.block) ∧
    (∀ command ∈ [Command.dump, .save, .load], parseCommand line = some command →
      ∀ faults, vm.overlay.fileFaults = true :: faults →
        vm.step = .next { vm with overlay := { vm.overlay with lines := rest, fileFaults := faults } })
end

