-- ==== Sys2Proof/Laws/Decode.lean ====
section
/-! SUPPORT. Small laws of the decoder's parts: validity of a slot, the operand classes, the rejection of a slot. -/

namespace Sys2Proof

@[simp] theorem validUnit_iff (u : CodeUnit) : validUnit u = true ↔ u.toNat ≤ 32775 := by simp [validUnit]

theorem validUnit_false_iff (u : CodeUnit) : validUnit u = false ↔ 32775 < u.toNat := by simp [validUnit]

theorem classify_literal {u : CodeUnit} (h : u.toNat ≤ 32767) : classify u = .literal (u.setWidth 15) := by
  simp [classify, h]

theorem classify_register {u : CodeUnit} (h : 32767 < u.toNat) (h' : u.toNat ≤ 32775) :
    classify u = .register ⟨u.toNat % 8, Nat.mod_lt _ (by decide)⟩ := by
  simp [classify, Nat.not_le.mpr h, h']

theorem classify_invalid {u : CodeUnit} (h : 32775 < u.toNat) : classify u = .invalid := by
  simp [classify, show ¬ u.toNat ≤ 32767 by omega, Nat.not_le.mpr h]

/-- A valid slot is not rejected. -/
theorem slotError_valid {kind : SlotKind} {u : CodeUnit} (h : u.toNat ≤ 32775) : slotError (kind, u) = none := by
  by_cases hl : u.toNat ≤ 32767
  · simp [slotError, classify_literal hl]
  · simp [slotError, classify_register (by omega) h]

theorem slotError_dest {u : CodeUnit} (h : 32775 < u.toNat) :
    slotError (.dest, u) = some (.addressOutOfRange u) := by simp [slotError, classify_invalid h]

theorem slotError_source {u : CodeUnit} (h : 32775 < u.toNat) :
    slotError (.source, u) = some (.invalidOperand u) := by simp [slotError, classify_invalid h]

/-- A slot is not rejected exactly when it is valid. -/
@[simp] theorem slotError_eq_none_iff (slot : SlotKind × CodeUnit) :
    slotError slot = none ↔ slot.2.toNat ≤ 32775 := by
  obtain ⟨kind, u⟩ := slot
  refine ⟨fun h => ?_, slotError_valid⟩
  by_contra hn
  cases kind
  · simp [slotError_dest (Nat.not_le.mp hn)] at h
  · simp [slotError_source (Nat.not_le.mp hn)] at h

@[simp] theorem firstSlotError_nil : firstSlotError [] = none := rfl

theorem firstSlotError_cons (slot : SlotKind × CodeUnit) (rest : List (SlotKind × CodeUnit)) :
    firstSlotError (slot :: rest) = (slotError slot).or (firstSlotError rest) := by
  rw [firstSlotError]
  cases slotError slot <;> rfl

@[simp] theorem firstSlotError_cons_eq_none_iff (slot : SlotKind × CodeUnit) (rest : List (SlotKind × CodeUnit)) :
    firstSlotError (slot :: rest) = none ↔ slot.2.toNat ≤ 32775 ∧ firstSlotError rest = none := by
  rw [firstSlotError_cons, Option.or_eq_none_iff, slotError_eq_none_iff]

end Sys2Proof
end

