-- ==== Sys2Proof/Laws/State.lean ====
section
/-! SUPPORT. One lemma per field per update of State, true by unfolding, so that no later proof unfolds a record update. -/

namespace Sys2Proof.Machine

variable (s : State)

@[simp] theorem writeCell_mem (a : Addr) (v : CodeUnit) : (s.writeCell a v).mem = s.mem.write a v := rfl
@[simp] theorem writeCell_pc (a : Addr) (v : CodeUnit) : (s.writeCell a v).pc = s.pc := rfl
@[simp] theorem writeCell_stack (a : Addr) (v : CodeUnit) : (s.writeCell a v).stack = s.stack := rfl
@[simp] theorem writeCell_cycles (a : Addr) (v : CodeUnit) : (s.writeCell a v).cycles = s.cycles := rfl
@[simp] theorem writeCell_status (a : Addr) (v : CodeUnit) : (s.writeCell a v).status = s.status := rfl
@[simp] theorem writeCell_output (a : Addr) (v : CodeUnit) : (s.writeCell a v).output = s.output := rfl
@[simp] theorem writeCell_hostQueue (a : Addr) (v : CodeUnit) : (s.writeCell a v).hostQueue = s.hostQueue := rfl

@[simp] theorem advance_mem (n : Nat) : (s.advance n).mem = s.mem := rfl
@[simp] theorem advance_pc (n : Nat) : (s.advance n).pc = s.pc + BitVec.ofNat 16 n := rfl
@[simp] theorem advance_stack (n : Nat) : (s.advance n).stack = s.stack := rfl
@[simp] theorem advance_cycles (n : Nat) : (s.advance n).cycles = s.cycles := rfl
@[simp] theorem advance_status (n : Nat) : (s.advance n).status = s.status := rfl
@[simp] theorem advance_output (n : Nat) : (s.advance n).output = s.output := rfl
@[simp] theorem advance_hostQueue (n : Nat) : (s.advance n).hostQueue = s.hostQueue := rfl

@[simp] theorem jumpTo_mem (p : CodeUnit) : (s.jumpTo p).mem = s.mem := rfl
@[simp] theorem jumpTo_pc (p : CodeUnit) : (s.jumpTo p).pc = p := rfl
@[simp] theorem jumpTo_stack (p : CodeUnit) : (s.jumpTo p).stack = s.stack := rfl
@[simp] theorem jumpTo_cycles (p : CodeUnit) : (s.jumpTo p).cycles = s.cycles := rfl
@[simp] theorem jumpTo_status (p : CodeUnit) : (s.jumpTo p).status = s.status := rfl
@[simp] theorem jumpTo_output (p : CodeUnit) : (s.jumpTo p).output = s.output := rfl
@[simp] theorem jumpTo_hostQueue (p : CodeUnit) : (s.jumpTo p).hostQueue = s.hostQueue := rfl

@[simp] theorem count_mem : (s.count).mem = s.mem := rfl
@[simp] theorem count_pc : (s.count).pc = s.pc := rfl
@[simp] theorem count_stack : (s.count).stack = s.stack := rfl
@[simp] theorem count_cycles : (s.count).cycles = s.cycles + 1 := rfl
@[simp] theorem count_status : (s.count).status = s.status := rfl
@[simp] theorem count_output : (s.count).output = s.output := rfl
@[simp] theorem count_hostQueue : (s.count).hostQueue = s.hostQueue := rfl

@[simp] theorem pushUnit_mem (v : CodeUnit) : (s.pushUnit v).mem = s.mem := rfl
@[simp] theorem pushUnit_pc (v : CodeUnit) : (s.pushUnit v).pc = s.pc := rfl
@[simp] theorem pushUnit_stack (v : CodeUnit) : (s.pushUnit v).stack = s.stack ++ [v] := rfl
@[simp] theorem pushUnit_cycles (v : CodeUnit) : (s.pushUnit v).cycles = s.cycles := rfl
@[simp] theorem pushUnit_status (v : CodeUnit) : (s.pushUnit v).status = s.status := rfl
@[simp] theorem pushUnit_output (v : CodeUnit) : (s.pushUnit v).output = s.output := rfl
@[simp] theorem pushUnit_hostQueue (v : CodeUnit) : (s.pushUnit v).hostQueue = s.hostQueue := rfl

@[simp] theorem raise_mem (c : Cause) (v : CodeUnit) : (s.raise c v).mem = s.mem := rfl
@[simp] theorem raise_pc (c : Cause) (v : CodeUnit) : (s.raise c v).pc = s.pc := rfl
@[simp] theorem raise_stack (c : Cause) (v : CodeUnit) : (s.raise c v).stack = s.stack := rfl
@[simp] theorem raise_cycles (c : Cause) (v : CodeUnit) : (s.raise c v).cycles = s.cycles := rfl
@[simp] theorem raise_status (c : Cause) (v : CodeUnit) : (s.raise c v).status = .faulted c v := rfl
@[simp] theorem raise_output (c : Cause) (v : CodeUnit) : (s.raise c v).output = s.output := rfl
@[simp] theorem raise_hostQueue (c : Cause) (v : CodeUnit) : (s.raise c v).hostQueue = s.hostQueue := rfl

@[simp] theorem stopNormally_mem : (s.stopNormally).mem = s.mem := rfl
@[simp] theorem stopNormally_pc : (s.stopNormally).pc = s.pc := rfl
@[simp] theorem stopNormally_stack : (s.stopNormally).stack = s.stack := rfl
@[simp] theorem stopNormally_cycles : (s.stopNormally).cycles = s.cycles := rfl
@[simp] theorem stopNormally_status : (s.stopNormally).status = .halted := rfl
@[simp] theorem stopNormally_output : (s.stopNormally).output = s.output := rfl
@[simp] theorem stopNormally_hostQueue : (s.stopNormally).hostQueue = s.hostQueue := rfl

@[simp] theorem emit_mem (v : CodeUnit) : (s.emit v).mem = s.mem := rfl
@[simp] theorem emit_pc (v : CodeUnit) : (s.emit v).pc = s.pc := rfl
@[simp] theorem emit_stack (v : CodeUnit) : (s.emit v).stack = s.stack := rfl
@[simp] theorem emit_cycles (v : CodeUnit) : (s.emit v).cycles = s.cycles := rfl
@[simp] theorem emit_status (v : CodeUnit) : (s.emit v).status = s.status := rfl
@[simp] theorem emit_output (v : CodeUnit) : (s.emit v).output = s.output ++ [v] := rfl
@[simp] theorem emit_hostQueue (v : CodeUnit) : (s.emit v).hostQueue = s.hostQueue := rfl

@[simp] theorem completeInput_mem (a : Addr) (v : CodeUnit) : (s.completeInput a v).mem = s.mem.write a v := rfl
@[simp] theorem completeInput_pc (a : Addr) (v : CodeUnit) : (s.completeInput a v).pc = pcAfterInput s.pc := rfl
@[simp] theorem completeInput_stack (a : Addr) (v : CodeUnit) : (s.completeInput a v).stack = s.stack := rfl
@[simp] theorem completeInput_cycles (a : Addr) (v : CodeUnit) : (s.completeInput a v).cycles = s.cycles := rfl
@[simp] theorem completeInput_status (a : Addr) (v : CodeUnit) : (s.completeInput a v).status = .running := rfl
@[simp] theorem completeInput_output (a : Addr) (v : CodeUnit) : (s.completeInput a v).output = s.output := rfl
@[simp] theorem completeInput_hostQueue (a : Addr) (v : CodeUnit) : (s.completeInput a v).hostQueue = s.hostQueue := rfl

@[simp] theorem restore_mem (snap : Snapshot) : (s.restore snap).mem = snap.mem := rfl
@[simp] theorem restore_pc (snap : Snapshot) : (s.restore snap).pc = snap.pc := rfl
@[simp] theorem restore_stack (snap : Snapshot) : (s.restore snap).stack = snap.stack := rfl
@[simp] theorem restore_cycles (snap : Snapshot) : (s.restore snap).cycles = s.cycles := rfl
@[simp] theorem restore_status (snap : Snapshot) : (s.restore snap).status = s.status := rfl
@[simp] theorem restore_output (snap : Snapshot) : (s.restore snap).output = s.output := rfl
@[simp] theorem restore_hostQueue (snap : Snapshot) : (s.restore snap).hostQueue = s.hostQueue := rfl

@[simp] theorem resetEvent_mem : (s.resetEvent).mem = [] := rfl
@[simp] theorem resetEvent_pc : (s.resetEvent).pc = 0#16 := rfl
@[simp] theorem resetEvent_stack : (s.resetEvent).stack = [] := rfl
@[simp] theorem resetEvent_cycles : (s.resetEvent).cycles = 0 := rfl
@[simp] theorem resetEvent_status : (s.resetEvent).status = .running := rfl
@[simp] theorem resetEvent_output : (s.resetEvent).output = s.output := rfl
@[simp] theorem resetEvent_hostQueue : (s.resetEvent).hostQueue = s.hostQueue := rfl

@[simp] theorem read_eq (a : Addr) : s.read a = s.mem.lookup a.val := rfl
@[simp] theorem reg_eq (r : RegNum) : s.reg r = s.mem.lookup (32768 + r.val) := rfl
@[simp] theorem depth_eq : s.depth = s.stack.length := rfl

@[simp] theorem beforeFirstStep_iff : s.beforeFirstStep = true ↔ s.status = .running ∧ s.cycles = 0 := by
  simp [State.beforeFirstStep]

theorem loadImage_refused (image : List Byte) (h : s.beforeFirstStep = false) : s.loadImage image = none := by
  simp [State.loadImage, h]

@[simp] theorem statusPort_status : s.statusPort.status = s.status.name := rfl
@[simp] theorem statusPort_cause : s.statusPort.cause = s.cause? := rfl
@[simp] theorem statusPort_info : s.statusPort.info = s.info? := rfl
@[simp] theorem statusPort_pc : s.statusPort.pc = s.pc := rfl
@[simp] theorem statusPort_cycles : s.statusPort.cycles = s.cycles := rfl
@[simp] theorem statusPort_depth : s.statusPort.depth = s.stack.length := rfl

end Sys2Proof.Machine
end

