-- ==== Sys2Proof/Laws/Operands.lean ====
section
/-! SUPPORT. What each operand operation can do, said once: the provers cite these and do not unfold the operations. -/

namespace Sys2Proof.Machine

theorem addrOf?_valid {u : CodeUnit} (h : u.toNat < 32776) : addrOf? u = some ⟨u.toNat, h⟩ := by simp [addrOf?, h]

theorem addrOf?_invalid {u : CodeUnit} (h : 32775 < u.toNat) : addrOf? u = none := by
  simp [addrOf?, show ¬ u.toNat < 32776 by omega]

theorem sourceValue_literal (s : State) {u : CodeUnit} (h : u.toNat ≤ 32767) : sourceValue s u = u := if_pos h

theorem sourceValue_register (s : State) {u : CodeUnit} (h : 32767 < u.toNat) :
    sourceValue s u = s.mem.lookup u.toNat := if_neg (Nat.not_le.mpr h)

/-- Values of sources depend on memory alone. -/
theorem sourceValue_congr {s t : State} (h : t.mem = s.mem) (u : CodeUnit) : sourceValue t u = sourceValue s u := by
  simp [sourceValue, h]

/-- The resolver on a valid slot (R72). -/
theorem resolve?_valid (s : State) {u : CodeUnit} (h : u.toNat ≤ 32775) :
    s.resolve? u = some (sourceValue s u) := by
  by_cases hl : u.toNat ≤ 32767
  · simp only [State.resolve?, classify_literal hl, sourceValue_literal s hl, Option.some.injEq]
    apply BitVec.eq_of_toNat_eq
    simp only [BitVec.toNat_setWidth]
    omega
  · have e : 32768 + u.toNat % 8 = u.toNat := by omega
    simp [State.resolve?, classify_register (Nat.not_le.mp hl) h, sourceValue_register s (Nat.not_le.mp hl), e]

theorem resolve?_invalid (s : State) {u : CodeUnit} (h : 32775 < u.toNat) : s.resolve? u = none := by
  simp [State.resolve?, classify_invalid h]

/-! ### Source slots -/

theorem withSource_valid (s : State) {u : CodeUnit} (go : CodeUnit → Result) (h : u.toNat ≤ 32775) :
    withSource u s go = go (sourceValue s u) := by simp [withSource, resolve?_valid s h]

theorem withSource_invalid (s : State) {u : CodeUnit} (go : CodeUnit → Result) (h : 32775 < u.toNat) :
    withSource u s go = .next (s.raise .invalidOperand u) := by simp [withSource, resolve?_invalid s h]

/-- If a source slot's operation answers a next state, the slot is valid and the rest answered it, or it is the fault. -/
theorem withSource_next {s t : State} {u : CodeUnit} {go : CodeUnit → Result} (h : withSource u s go = .next t) :
    (u.toNat ≤ 32775 ∧ go (sourceValue s u) = .next t) ∨ (32775 < u.toNat ∧ t = s.raise .invalidOperand u) := by
  by_cases hu : u.toNat ≤ 32775
  · exact .inl ⟨hu, withSource_valid s go hu ▸ h⟩
  · rw [withSource_invalid s go (Nat.not_le.mp hu)] at h
    exact .inr ⟨Nat.not_le.mp hu, by simpa using h.symm⟩

/-! ### Addresses -/

theorem withAddress_valid (s : State) {u : CodeUnit} (go : Addr → Result) (h : u.toNat < 32776) :
    withAddress u s go = go ⟨u.toNat, h⟩ := by simp [withAddress, addrOf?_valid h]

theorem withAddress_invalid (s : State) {u : CodeUnit} (go : Addr → Result) (h : 32775 < u.toNat) :
    withAddress u s go = .next (s.raise .addressOutOfRange u) := by simp [withAddress, addrOf?_invalid h]

/-- If an address's operation answers a next state, the address exists and the rest answered it, or it is the fault. -/
theorem withAddress_next {s t : State} {u : CodeUnit} {go : Addr → Result} (h : withAddress u s go = .next t) :
    (∃ hu : u.toNat < 32776, go ⟨u.toNat, hu⟩ = .next t) ∨
      (32775 < u.toNat ∧ t = s.raise .addressOutOfRange u) := by
  by_cases hu : u.toNat < 32776
  · exact .inl ⟨hu, withAddress_valid s go hu ▸ h⟩
  · rw [withAddress_invalid s go (by omega)] at h
    exact .inr ⟨by omega, by simpa using h.symm⟩

/-! ### The stack -/

/-- A push in this build never overflows (R18). -/
@[simp] theorem withPush_eq (v : CodeUnit) (s : State) (go : State → Result) :
    withPush v s go = go (s.pushUnit v) := rfl

theorem popUnit?_nil {s : State} (h : s.stack = []) : s.popUnit? = none := by simp [State.popUnit?, h]

theorem popUnit?_concat {s : State} {st : List CodeUnit} {v : CodeUnit} (h : s.stack = st ++ [v]) :
    s.popUnit? = some (v, { s with stack := st }) := by simp [State.popUnit?, h]

theorem withPop_nil {s : State} (go : CodeUnit → State → Result) (h : s.stack = []) :
    withPop s go = .next (s.raise .stackUnderflow 0#16) := by simp [withPop, popUnit?_nil h]

theorem withPop_concat {s : State} {st : List CodeUnit} {v : CodeUnit} (go : CodeUnit → State → Result)
    (h : s.stack = st ++ [v]) : withPop s go = go v { s with stack := st } := by simp [withPop, popUnit?_concat h]

/-- A stack is empty or has a top. -/
theorem stack_cases (st : List CodeUnit) : st = [] ∨ ∃ rest v, st = rest ++ [v] := by
  rcases List.eq_nil_or_concat st with h | ⟨rest, v, h⟩
  · exact .inl h
  · exact .inr ⟨rest, v, by simpa using h⟩

end Sys2Proof.Machine
end

