-- ==== Sys2Proof/Laws/Exec.lean ====
section
/-! SUPPORT. What each meaning can do when it answers a next state, said once per instruction (`exec_<instruction>_next`), and for all
instructions together (`exec_effect`). The left case is the instruction's own effect, the right one its fault. -/

namespace Sys2Proof.Machine

variable {s t : State} {a b c : CodeUnit}

/-- The fault case of every inversion below. -/
abbrev Raised (s t : State) : Prop := ∃ cause info, t = s.raise cause info

theorem withSource_cases {go : CodeUnit → Result} {P : Prop} (h : withSource a s go = .next t)
    (ok : a.toNat ≤ 32775 → go (sourceValue s a) = .next t → P) : P ∨ Raised s t := by
  rcases withSource_next h with ⟨ha, h⟩ | ⟨_, rfl⟩
  · exact .inl (ok ha h)
  · exact .inr ⟨_, _, rfl⟩

theorem withSource_cases' {go : CodeUnit → Result} {P : Prop} (h : withSource a s go = .next t)
    (ok : a.toNat ≤ 32775 → go (sourceValue s a) = .next t → P ∨ Raised s t) : P ∨ Raised s t := by
  rcases withSource_next h with ⟨ha, h⟩ | ⟨_, rfl⟩
  · exact ok ha h
  · exact .inr ⟨_, _, rfl⟩

theorem withAddress_cases' {go : Addr → Result} {P : Prop} (h : withAddress a s go = .next t)
    (ok : ∀ ha : a.toNat < 32776, go ⟨a.toNat, ha⟩ = .next t → P ∨ Raised s t) : P ∨ Raised s t := by
  rcases withAddress_next h with ⟨ha, h⟩ | ⟨_, rfl⟩
  · exact ok ha h
  · exact .inr ⟨_, _, rfl⟩

/-- The effect of an instruction that writes one computed cell: destination `a`, value `v`, `n` cells long. -/
abbrev Wrote (s t : State) (a v : CodeUnit) (n : Nat) : Prop :=
  ∃ ha : a.toNat < 32776, t = (s.writeCell ⟨a.toNat, ha⟩ v).advance n

theorem execDSS_next {f : CodeUnit → CodeUnit → CodeUnit} (h : execDSS f a b c s = .next t) :
    Wrote s t a (f (sourceValue s b) (sourceValue s c)) 4 ∨ Raised s t :=
  withAddress_cases' h fun ha h => withSource_cases' h fun _ h => withSource_cases h fun _ h => by
    cases h; exact ⟨ha, rfl⟩

/-- The three-slot form on valid slots: it always completes. -/
theorem execDSS_valid (f : CodeUnit → CodeUnit → CodeUnit) (s : State) (ha : a.toNat < 32776) (hb : b.toNat ≤ 32775)
    (hc : c.toNat ≤ 32775) : execDSS f a b c s =
      .next ((s.writeCell ⟨a.toNat, ha⟩ (f (sourceValue s b) (sourceValue s c))).advance 4) := by
  unfold execDSS
  rw [withAddress_valid _ _ ha, withSource_valid _ _ hb, withSource_valid _ _ hc]

theorem exec_set_next (h : exec (.set a b) s = .next t) : Wrote s t a (sourceValue s b) 3 ∨ Raised s t :=
  withAddress_cases' h fun ha h => withSource_cases h fun _ h => by cases h; exact ⟨ha, rfl⟩

theorem exec_not_next (h : exec (.not a b) s = .next t) : Wrote s t a (notUnit (sourceValue s b)) 3 ∨ Raised s t :=
  withAddress_cases' h fun ha h => withSource_cases h fun _ h => by cases h; exact ⟨ha, rfl⟩

theorem exec_mod_next (h : exec (.mod a b c) s = .next t) :
    (∃ v, modUnit? (sourceValue s b) (sourceValue s c) = some v ∧ Wrote s t a v 4) ∨ Raised s t :=
  withAddress_cases' h fun ha h => withSource_cases' h fun _ h => withSource_cases' h fun _ h => by
    split at h
    · cases h; exact .inr ⟨_, _, rfl⟩
    · next v hv => cases h; exact .inl ⟨v, hv, ha, rfl⟩

theorem exec_rmem_next (h : exec (.rmem a b) s = .next t) :
    (∃ e : Addr, e.val = (sourceValue s b).toNat ∧ Wrote s t a (s.read e) 3) ∨ Raised s t :=
  withAddress_cases' h fun ha h => withSource_cases' h fun _ h => withAddress_cases' h fun _ h => by
    cases h; exact .inl ⟨_, rfl, ha, rfl⟩

theorem exec_wmem_next (h : exec (.wmem a b) s = .next t) :
    Wrote s t (sourceValue s a) (sourceValue s b) 3 ∨ Raised s t :=
  withSource_cases' h fun _ h => withSource_cases' h fun _ h => withAddress_cases' h fun ha h => by
    cases h; exact .inl ⟨ha, rfl⟩

theorem exec_push_next (h : exec (.push a) s = .next t) :
    t = (s.pushUnit (sourceValue s a)).advance 2 ∨ Raised s t :=
  withSource_cases h fun _ h => by cases h; rfl

theorem exec_pop_next (h : exec (.pop a) s = .next t) :
    (∃ st v, s.stack = st ++ [v] ∧ Wrote { s with stack := st } t a v 2) ∨ Raised s t :=
  withAddress_cases' h fun ha h => by
    rcases stack_cases s.stack with hs | ⟨st, v, hs⟩
    · rw [withPop_nil _ hs] at h; cases h; exact .inr ⟨_, _, rfl⟩
    · rw [withPop_concat _ hs] at h; cases h; exact .inl ⟨st, v, hs, ha, rfl⟩

theorem exec_jmp_next (h : exec (.jmp a) s = .next t) : t = s.jumpTo (sourceValue s a) ∨ Raised s t :=
  withSource_cases h fun _ h => by cases h; rfl

theorem exec_jt_next (h : exec (.jt a b) s = .next t) :
    t = (if isTrue (sourceValue s a) then s.jumpTo (sourceValue s b) else s.advance 3) ∨ Raised s t :=
  withSource_cases' h fun _ h => withSource_cases h fun _ h => by cases h; rfl

theorem exec_jf_next (h : exec (.jf a b) s = .next t) :
    t = (if isTrue (sourceValue s a) then s.advance 3 else s.jumpTo (sourceValue s b)) ∨ Raised s t :=
  withSource_cases' h fun _ h => withSource_cases h fun _ h => by cases h; rfl

theorem exec_call_next (h : exec (.call a) s = .next t) :
    t = (s.pushUnit (s.pc + 2#16)).jumpTo (sourceValue s a) ∨ Raised s t :=
  withSource_cases h fun _ h => by cases h; rfl

theorem exec_ret_next (h : exec .ret s = .next t) :
    (s.stack = [] ∧ t = (s.advance 1).stopNormally) ∨
      ∃ st v, s.stack = st ++ [v] ∧ t = { s with stack := st }.jumpTo v := by
  rcases stack_cases s.stack with hs | ⟨st, v, hs⟩
  · simp only [exec, execRet, popUnit?_nil hs] at h; cases h; exact .inl ⟨hs, rfl⟩
  · simp only [exec, execRet, popUnit?_concat hs] at h; cases h; exact .inr ⟨st, v, hs, rfl⟩

theorem exec_out_next (h : exec (.out a) s = .next t) :
    (a.toNat ≤ 32775 ∧ t = (s.emit (sourceValue s a)).advance 2) ∨ Raised s t :=
  withSource_cases h fun ha h => by cases h; exact ⟨ha, rfl⟩

/-- What an `in` with a valid destination does. -/
theorem requestInput_cases (s : State) (d : Addr) :
    (∃ v q, s.hostQueue = .deliver v :: q ∧ s.requestInput d = { s with hostQueue := q }.completeInput d v) ∨
      ((∀ v q, s.hostQueue ≠ .deliver v :: q) ∧ s.requestInput d = { s with status := .waitInput d }) := by
  unfold State.requestInput
  split
  · next v q hq => exact .inl ⟨v, q, hq, rfl⟩
  · next hn => exact .inr ⟨hn, rfl⟩

theorem exec_inp_next (h : exec (.inp a) s = .next t) :
    (∃ d : Addr, d.val = a.toNat ∧ t = s.requestInput d) ∨ Raised s t :=
  withAddress_cases' h fun _ h => by cases h; exact .inl ⟨_, rfl, rfl⟩

/-! ### All instructions together -/

/-- The shapes of an instruction's effect on a state. -/
inductive Effect (s : State) : State → Prop where
  | raised (c : Cause) (v : CodeUnit) : Effect s (s.raise c v)
  | stored (d : Addr) (v p : CodeUnit) : Effect s { s with mem := s.mem.write d v, pc := p }
  | moved (p : CodeUnit) : Effect s { s with pc := p }
  | pushed (v p : CodeUnit) : Effect s { s with stack := s.stack ++ [v], pc := p }
  | popped (st : List CodeUnit) (d : Addr) (v p : CodeUnit) (h : s.stack = st ++ [v]) :
      Effect s { s with stack := st, mem := s.mem.write d v, pc := p }
  | returned (st : List CodeUnit) (p : CodeUnit) (h : s.stack = st ++ [p]) : Effect s { s with stack := st, pc := p }
  | stopped (p : CodeUnit) : Effect s { s with pc := p, status := .halted }
  | emitted (v p : CodeUnit) : Effect s { s with output := s.output ++ [v], pc := p }
  | waiting (d : Addr) : Effect s { s with status := .waitInput d }
  | received (q : List HostAction) (d : Addr) (v p : CodeUnit) (h : s.hostQueue = .deliver v :: q) :
      Effect s { s with mem := s.mem.write d v, pc := p, status := .running, hostQueue := q }

theorem Effect.ofRaised (h : Raised s t) : Effect s t := by
  obtain ⟨c, v, rfl⟩ := h; exact .raised c v

theorem Effect.ofWrote {v : CodeUnit} {n : Nat} (h : Wrote s t a v n ∨ Raised s t) : Effect s t := by
  rcases h with ⟨_, rfl⟩ | h
  · exact .stored ..
  · exact .ofRaised h

/-- If an instruction answers a next state, its effect has one of the shapes of `Effect`. -/
theorem exec_effect {i : Instr} (h : exec i s = .next t) : Effect s t := by
  cases i with
  | halt => cases h; exact .stopped _
  | noop => cases h; exact .moved _
  | eq | gt | add | mult | and | or => exact .ofWrote (execDSS_next h)
  | set => exact .ofWrote (exec_set_next h)
  | not => exact .ofWrote (exec_not_next h)
  | wmem => exact .ofWrote (exec_wmem_next h)
  | mod =>
    rcases exec_mod_next h with ⟨_, _, h⟩ | h
    · exact .ofWrote (.inl h)
    · exact .ofRaised h
  | rmem =>
    rcases exec_rmem_next h with ⟨_, _, h⟩ | h
    · exact .ofWrote (.inl h)
    · exact .ofRaised h
  | push =>
    rcases exec_push_next h with rfl | h
    · exact .pushed ..
    · exact .ofRaised h
  | pop =>
    rcases exec_pop_next h with ⟨st, v, hs, _, rfl⟩ | h
    · exact .popped st _ v _ hs
    · exact .ofRaised h
  | jmp =>
    rcases exec_jmp_next h with rfl | h
    · exact .moved _
    · exact .ofRaised h
  | jt =>
    rcases exec_jt_next h with rfl | h
    · split <;> exact .moved _
    · exact .ofRaised h
  | jf =>
    rcases exec_jf_next h with rfl | h
    · split <;> exact .moved _
    · exact .ofRaised h
  | call =>
    rcases exec_call_next h with rfl | h
    · exact .pushed ..
    · exact .ofRaised h
  | ret =>
    rcases exec_ret_next h with ⟨_, rfl⟩ | ⟨st, v, hs, rfl⟩
    · exact .stopped _
    · exact .returned st v hs
  | out =>
    rcases exec_out_next h with ⟨_, rfl⟩ | h
    · exact .emitted ..
    · exact .ofRaised h
  | inp =>
    rcases exec_inp_next h with ⟨d, _, rfl⟩ | h
    · rcases requestInput_cases s d with ⟨v, q, hq, e⟩ | ⟨_, e⟩
      · rw [e]; exact .received q d v _ hq
      · rw [e]; exact .waiting d
    · exact .ofRaised h

end Sys2Proof.Machine
end

