-- ==== Sys2Proof/Laws/Feed.lean ====
section
/-! SUPPORT. A fed run unfolded one step at a time, and what an arrival changes: one lemma per field. -/

namespace Sys2Proof.Machine

theorem fedRun_succ {σ α φ ρ : Type} {step : σ → Host.Outcome σ φ ρ} {arrive : σ → α → σ} {arrivals : Nat → α} {n : Nat}
    {s t : σ} (h : fedRun step arrive arrivals n s = .next t) :
    fedRun step arrive arrivals (n + 1) s = step (arrive t (arrivals n)) := by
  simp only [fedRun, h]

/-- A machine whose step always answers a next state answers one after any fed run, and what a step keeps of state and arrivals
holds along it: `P n` holds at the start for `n = 0`, and arrival and step lead from `P n` to `P (n + 1)`. -/
theorem fedRun_induction {σ α φ ρ : Type} {step : σ → Host.Outcome σ φ ρ} {arrive : σ → α → σ} {arrivals : Nat → α}
    {P : Nat → σ → Prop} {s : σ} (start : P 0 s)
    (next : ∀ n t, P n t → ∃ u, step (arrive t (arrivals n)) = .next u ∧ P (n + 1) u) (n : Nat) :
    ∃ t, fedRun step arrive arrivals n s = .next t ∧ P n t := by
  induction n with
  | zero => exact ⟨s, rfl, start⟩
  | succ n ih =>
    obtain ⟨t, h, hp⟩ := ih
    rw [fedRun_succ h]
    exact next n t hp

variable (s : State) (actions : List HostAction)

@[simp] theorem arrive_mem : (s.arrive actions).mem = s.mem := rfl
@[simp] theorem arrive_pc : (s.arrive actions).pc = s.pc := rfl
@[simp] theorem arrive_stack : (s.arrive actions).stack = s.stack := rfl
@[simp] theorem arrive_cycles : (s.arrive actions).cycles = s.cycles := rfl
@[simp] theorem arrive_status : (s.arrive actions).status = s.status := rfl
@[simp] theorem arrive_output : (s.arrive actions).output = s.output := rfl
@[simp] theorem arrive_hostQueue : (s.arrive actions).hostQueue = s.hostQueue ++ actions := rfl

end Sys2Proof.Machine
end

