-- ==== Sys2Proof/Laws/Files.lean ====
section
/-! SUPPORT. Laws of the byte formats: reading back what was written. -/

namespace Sys2Proof.Machine

theorem unitOfBytes_unitBytes (u : CodeUnit) :
    unitOfBytes (BitVec.ofNat 8 u.toNat) (BitVec.ofNat 8 (u.toNat / 256)) = u := by
  apply BitVec.eq_of_toNat_eq
  have := u.isLt
  simp only [unitOfBytes, BitVec.toNat_ofNat]
  omega

theorem bytesOfUnits_cons (u : CodeUnit) (us : List CodeUnit) :
    bytesOfUnits (u :: us) = BitVec.ofNat 8 u.toNat :: BitVec.ofNat 8 (u.toNat / 256) :: bytesOfUnits us := rfl

@[simp] theorem bytesOfUnits_length (us : List CodeUnit) : (bytesOfUnits us).length = 2 * us.length := by
  induction us with
  | nil => rfl
  | cons u us ih => rw [bytesOfUnits_cons, List.length_cons, List.length_cons, ih, List.length_cons]; omega

/-- Code units written as bytes are read back. -/
@[simp] theorem unitsOfBytes_bytesOfUnits (us : List CodeUnit) : unitsOfBytes (bytesOfUnits us) = us := by
  induction us with
  | nil => rfl
  | cons u us ih => rw [bytesOfUnits_cons, unitsOfBytes, ih, unitOfBytes_unitBytes]

/-- Bytes 2k and 2k + 1 of a list of code units are code unit k, low byte first. -/
theorem bytesOfUnits_getD (us : List CodeUnit) {k : Nat} (h : k < us.length) :
    ((bytesOfUnits us).getD (2 * k) 0#8).toNat + 256 * ((bytesOfUnits us).getD (2 * k + 1) 0#8).toNat =
      (us.getD k 0#16).toNat := by
  induction us generalizing k with
  | nil => simp at h
  | cons u us ih =>
    rw [bytesOfUnits_cons]
    cases k with
    | zero =>
      have := u.isLt
      simp only [Nat.mul_zero, Nat.zero_add, List.getD_cons_zero, List.getD_cons_succ, BitVec.toNat_ofNat]
      omega
    | succ k =>
      have := ih (k := k) (by simpa using h)
      simpa only [Nat.mul_succ, List.getD_cons_succ] using this

theorem bytesOfUnits_append (us vs : List CodeUnit) :
    bytesOfUnits us ++ bytesOfUnits vs = bytesOfUnits (us ++ vs) := by simp [bytesOfUnits]

/-- A 32-bit count written as bytes is read back. -/
theorem countOfBytes_countBytes {n : Nat} (h : n < 2 ^ 32) :
    countOfBytes (BitVec.ofNat 8 n) (BitVec.ofNat 8 (n / 256)) (BitVec.ofNat 8 (n / 65536))
      (BitVec.ofNat 8 (n / 16777216)) = n := by
  simp only [countOfBytes, BitVec.toNat_ofNat]
  omega

@[simp] theorem Memory.cells_length (m : Memory) : m.cells.length = 32776 := by simp [Memory.cells]

theorem Memory.cells_getElem? (m : Memory) (a : Addr) : m.cells[a.val]? = some (m.read a) := by
  have := a.isLt
  simp [Memory.cells]

end Sys2Proof.Machine
end

