-- ==== Sys2Proof/Laws/Flags.lean ====
section
/-! SUPPORT. The computed values as numbers. -/

namespace Sys2Proof.Machine

@[simp] theorem reduceWord_toNat (n : Nat) : (reduceWord n).toNat = n % 32768 := by
  simp only [reduceWord, BitVec.toNat_ofNat]; omega

/-- The mask is reduction modulo 32768 (R110 law 2). -/
@[simp] theorem maskWord_toNat (v : CodeUnit) : (maskWord v).toNat = v.toNat % 32768 := by
  have : (0x7FFF#16).toNat = 2 ^ 15 - 1 := rfl
  rw [maskWord, BitVec.toNat_and, this, Nat.and_two_pow_sub_one_eq_mod]

theorem modUnit?_zero (vb : CodeUnit) : modUnit? vb 0#16 = none := rfl

theorem modUnit?_pos (vb : CodeUnit) {vc : CodeUnit} (h : vc ≠ 0#16) :
    modUnit? vb vc = some (maskWord (BitVec.ofNat 16 (vb.toNat % vc.toNat))) := by simp [modUnit?, h]

@[simp] theorem isTrue_iff (v : CodeUnit) : isTrue v = true ↔ v ≠ 0#16 := by simp [isTrue]

@[simp] theorem truthUnit_true : truthUnit true = 1#16 := rfl
@[simp] theorem truthUnit_false : truthUnit false = 0#16 := rfl

end Sys2Proof.Machine
end

