-- ==== Sys2Proof/Laws/Memory.lean ====
section
/-! SUPPORT. The laws of memory: read after write, the canonical form, and that canonical memories with the same contents are
equal. -/

namespace Sys2Proof.Machine

@[simp] theorem Memory.lookup_nil (a : Nat) : Memory.lookup [] a = Config.resetFill := rfl

theorem Memory.lookup_cons (e : Nat × CodeUnit) (m : Memory) (a : Nat) :
    Memory.lookup (e :: m) a = if e.1 = a then e.2 else Memory.lookup m a := rfl

theorem Memory.lookup_erase (m : Memory) (a b : Nat) :
    Memory.lookup (Memory.erase m a) b = if b = a then Config.resetFill else Memory.lookup m b := by
  unfold Memory.erase
  induction m with
  | nil => simp
  | cons e m ih =>
    by_cases he : e.1 = a
    · rw [List.filter_cons_of_neg (by simp [he]), ih]
      by_cases hb : b = a
      · simp [hb]
      · simp [hb, Memory.lookup_cons, show e.1 ≠ b by omega]
    · rw [List.filter_cons_of_pos (by simp [he]), Memory.lookup_cons, Memory.lookup_cons, ih]
      by_cases hb : b = a
      · simp [hb, he]
      · simp [hb]

theorem Memory.lookup_insert (m : Memory) (a b : Nat) (v : CodeUnit)
    (h : ∀ e ∈ m, e.1 ≠ a) :
    Memory.lookup (Memory.insert a v m) b = if b = a then v else Memory.lookup m b := by
  induction m with
  | nil => simp [Memory.insert, Memory.lookup_cons, eq_comm]
  | cons e m ih =>
    have he : e.1 ≠ a := h e (by simp)
    have ih := ih (fun e' he' => h e' (by simp [he']))
    unfold Memory.insert
    split
    · simp [Memory.lookup_cons, eq_comm]
    · rw [Memory.lookup_cons, Memory.lookup_cons, ih]
      by_cases hb : b = a
      · simp [hb, he]
      · simp [hb]

theorem Memory.erase_ne (m : Memory) (a : Nat) : ∀ e ∈ Memory.erase m a, e.1 ≠ a := by
  intro e he
  simpa using (List.mem_filter.mp he).2

/-- A read after a write: the cell written gives the value, every other cell is left alone (R33). -/
@[simp] theorem Memory.lookup_write (m : Memory) (a : Addr) (v : CodeUnit) (b : Nat) :
    Memory.lookup (Memory.write m a v) b = if b = a.val then v else Memory.lookup m b := by
  unfold Memory.write
  split
  · next h => rw [Memory.lookup_erase, h]
  · rw [Memory.lookup_insert _ _ _ _ (Memory.erase_ne m a), Memory.lookup_erase]
    split <;> rfl

theorem Memory.read_write (m : Memory) (a b : Addr) (v : CodeUnit) :
    (m.write a v).read b = if b = a then v else m.read b := by
  unfold Memory.read
  rw [Memory.lookup_write]
  simp [Fin.ext_iff]

/-! ### The canonical form -/

@[simp] theorem Memory.wfFrom_nil (lo : Nat) : Memory.wfFrom lo [] = true := rfl

@[simp] theorem Memory.wfFrom_cons (lo : Nat) (e : Nat × CodeUnit) (m : Memory) :
    Memory.wfFrom lo (e :: m) = true ↔
      lo ≤ e.1 ∧ e.1 < 32776 ∧ e.2 ≠ Config.resetFill ∧ Memory.wfFrom (e.1 + 1) m = true := by
  simp [Memory.wfFrom, and_assoc]

theorem Memory.wfFrom_mono {lo lo' : Nat} {m : Memory} (h : lo' ≤ lo) (hm : Memory.wfFrom lo m = true) :
    Memory.wfFrom lo' m = true := by
  cases m with
  | nil => rfl
  | cons e m =>
    rw [Memory.wfFrom_cons] at hm ⊢
    exact ⟨by omega, hm.2⟩

theorem Memory.wfFrom_erase {lo : Nat} {m : Memory} (a : Nat) (h : Memory.wfFrom lo m = true) :
    Memory.wfFrom lo (Memory.erase m a) = true := by
  induction m generalizing lo with
  | nil => rfl
  | cons e m ih =>
    obtain ⟨h1, h2, h3, h4⟩ := (Memory.wfFrom_cons ..).mp h
    unfold Memory.erase at ih ⊢
    by_cases he : e.1 = a
    · rw [List.filter_cons_of_neg (by simp [he])]
      exact Memory.wfFrom_mono (by omega) (ih h4)
    · rw [List.filter_cons_of_pos (by simp [he]), Memory.wfFrom_cons]
      exact ⟨h1, h2, h3, ih h4⟩

theorem Memory.wfFrom_insert {lo : Nat} {m : Memory} {a : Nat} {v : CodeUnit} (h : Memory.wfFrom lo m = true)
    (hlo : lo ≤ a) (ha : a < 32776) (hv : v ≠ Config.resetFill) (hne : ∀ e ∈ m, e.1 ≠ a) :
    Memory.wfFrom lo (Memory.insert a v m) = true := by
  induction m generalizing lo with
  | nil => simp [Memory.insert, hlo, ha, hv]
  | cons e m ih =>
    obtain ⟨h1, h2, h3, h4⟩ := (Memory.wfFrom_cons ..).mp h
    have he : e.1 ≠ a := hne e (by simp)
    unfold Memory.insert
    split
    · rw [Memory.wfFrom_cons, Memory.wfFrom_cons]
      exact ⟨hlo, ha, hv, by omega, h2, h3, h4⟩
    · rw [Memory.wfFrom_cons]
      exact ⟨h1, h2, h3, ih h4 (by omega) (fun e' he' => hne e' (by simp [he']))⟩

/-- A write keeps the canonical form. -/
theorem Memory.wf_write {m : Memory} (a : Addr) (v : CodeUnit) (h : Memory.wf m = true) :
    Memory.wf (m.write a v) = true := by
  unfold Memory.write
  split
  · exact Memory.wfFrom_erase _ h
  · next hv =>
    exact Memory.wfFrom_insert (Memory.wfFrom_erase _ h) (Nat.zero_le _) a.isLt hv (Memory.erase_ne m a)

/-- Storing a list of code units keeps the canonical form. -/
theorem Memory.wf_storeMain {m : Memory} (a : Nat) (us : List CodeUnit) (h : Memory.wf m = true) :
    Memory.wf (m.storeMain a us) = true := by
  induction us generalizing m a with
  | nil => exact h
  | cons u us ih =>
    unfold Memory.storeMain
    split
    · exact ih _ (Memory.wf_write _ _ h)
    · exact h

theorem Memory.lookup_of_lt {lo : Nat} {m : Memory} (h : Memory.wfFrom lo m = true) {a : Nat} (ha : a < lo) :
    Memory.lookup m a = Config.resetFill := by
  induction m generalizing lo with
  | nil => rfl
  | cons e m ih =>
    obtain ⟨h1, -, -, h4⟩ := (Memory.wfFrom_cons ..).mp h
    rw [Memory.lookup_cons, if_neg (by omega)]
    exact ih h4 (by omega)

theorem Memory.wfFrom_ext {lo : Nat} {m n : Memory} (hm : Memory.wfFrom lo m = true) (hn : Memory.wfFrom lo n = true)
    (h : ∀ a, a < 32776 → Memory.lookup m a = Memory.lookup n a) : m = n := by
  induction m generalizing n lo with
  | nil =>
    cases n with
    | nil => rfl
    | cons f n =>
      obtain ⟨-, hf, hv, -⟩ := (Memory.wfFrom_cons ..).mp hn
      have := h f.1 hf
      rw [Memory.lookup_cons, if_pos rfl, Memory.lookup_nil] at this
      exact absurd this.symm hv
  | cons e m ih =>
    obtain ⟨e1, e2, e3, e4⟩ := (Memory.wfFrom_cons ..).mp hm
    cases n with
    | nil =>
      have := h e.1 e2
      rw [Memory.lookup_cons, if_pos rfl, Memory.lookup_nil] at this
      exact absurd this e3
    | cons f n =>
      obtain ⟨f1, f2, f3, f4⟩ := (Memory.wfFrom_cons ..).mp hn
      have key : e.1 = f.1 := by
        by_contra hne
        rcases Nat.lt_or_gt_of_ne hne with hlt | hlt
        · have := h e.1 e2
          rw [Memory.lookup_cons, if_pos rfl, Memory.lookup_cons, if_neg (by omega),
            Memory.lookup_of_lt f4 (by omega)] at this
          exact e3 this
        · have := h f.1 f2
          rw [Memory.lookup_cons, if_neg (by omega), Memory.lookup_of_lt e4 (by omega),
            Memory.lookup_cons, if_pos rfl] at this
          exact f3 this.symm
      have val : e.2 = f.2 := by
        have := h e.1 e2
        rwa [Memory.lookup_cons, if_pos rfl, Memory.lookup_cons, if_pos key.symm] at this
      have tail : m = n := by
        refine ih e4 (key ▸ f4) (fun a ha => ?_)
        by_cases hea : e.1 = a
        · rw [Memory.lookup_of_lt e4 (by omega), Memory.lookup_of_lt f4 (by omega)]
        · have := h a ha
          rwa [Memory.lookup_cons, if_neg hea, Memory.lookup_cons, if_neg (by omega)] at this
      rw [tail, Prod.ext key val]

/-- Canonical memories with the same contents are equal. -/
theorem Memory.ext_of_wf {m n : Memory} (hm : Memory.wf m = true) (hn : Memory.wf n = true)
    (h : ∀ a : Addr, m.read a = n.read a) : m = n :=
  Memory.wfFrom_ext hm hn (fun a ha => h ⟨a, ha⟩)

/-! ### Memories made from lists of code units -/

theorem Memory.wfFrom_ofCellsFrom (a : Nat) (us : List CodeUnit) (h : a + us.length ≤ 32776) :
    Memory.wfFrom a (Memory.ofCellsFrom a us) = true := by
  induction us generalizing a with
  | nil => rfl
  | cons u us ih =>
    simp only [List.length_cons] at h
    have ih := ih (a + 1) (by omega)
    unfold Memory.ofCellsFrom
    split
    · exact Memory.wfFrom_mono (by omega) ih
    · next hu => rw [Memory.wfFrom_cons]; exact ⟨le_refl _, by omega, hu, ih⟩

theorem Memory.lookup_ofCellsFrom (a : Nat) (us : List CodeUnit) (b : Nat) :
    Memory.lookup (Memory.ofCellsFrom a us) b =
      if a ≤ b then us.getD (b - a) Config.resetFill else Config.resetFill := by
  induction us generalizing a with
  | nil => simp [Memory.ofCellsFrom]
  | cons u us ih =>
    have ih := ih (a + 1)
    unfold Memory.ofCellsFrom
    rcases Nat.lt_trichotomy a b with hab | hab | hab
    · have hs : b - a = (b - (a + 1)) + 1 := by omega
      rw [if_pos (by omega)] at ih
      rw [if_pos (Nat.le_of_lt hab), hs, List.getD_cons_succ, ← ih]
      split
      · rfl
      · rw [Memory.lookup_cons, if_neg (by simpa using Nat.ne_of_lt hab)]
    · subst hab
      rw [if_neg (by omega)] at ih
      simp only [le_refl, Nat.sub_self, if_true, List.getD_cons_zero]
      split
      · next hu => rw [ih, hu]
      · rw [Memory.lookup_cons, if_pos rfl]
    · rw [if_neg (show ¬ a + 1 ≤ b by omega)] at ih
      rw [if_neg (show ¬ a ≤ b by omega)]
      split
      · exact ih
      · rw [Memory.lookup_cons, if_neg (by simpa using (Nat.ne_of_lt hab).symm), ih]

/-- The contents of main cells after storing a list from address `a` upward. -/
theorem Memory.lookup_storeMain (m : Memory) (a : Nat) (us : List CodeUnit) (b : Nat) (h : a + us.length ≤ 32768) :
    Memory.lookup (m.storeMain a us) b =
      if a ≤ b ∧ b < a + us.length then us.getD (b - a) 0#16 else Memory.lookup m b := by
  induction us generalizing m a with
  | nil => simp [Memory.storeMain]
  | cons u us ih =>
    simp only [List.length_cons] at h ⊢
    unfold Memory.storeMain
    rw [dif_pos (show a < 32768 by omega), ih _ _ (by omega),
      Memory.lookup_write]
    by_cases hb : b = a
    · subst hb
      rw [if_neg (by omega), if_pos rfl, if_pos ⟨le_refl _, by omega⟩]; simp
    · by_cases hab : a + 1 ≤ b ∧ b < a + 1 + us.length
      · have hs : b - a = (b - (a + 1)) + 1 := by omega
        rw [if_pos hab, if_pos (by omega), hs, List.getD_cons_succ]
      · rw [if_neg hab, if_neg (by simpa using hb), if_neg (by omega)]

end Sys2Proof.Machine
end

