-- ==== Sys2Proof/Laws/Overlay.lean ====
section
/-! SUPPORT. What a command of the overlay can do, said once. -/

namespace Sys2Proof.Machine

/-- A file access fails and does nothing else, or the command goes on; either way only the faults to come have changed. -/
theorem withFile_cases (o : Overlay) (go : Overlay → Overlay × Option HostAction) :
    ∃ faults, o.withFile go = ({ o with fileFaults := faults }, none) ∨
      o.withFile go = go { o with fileFaults := faults } := by
  unfold Overlay.withFile
  split
  · exact ⟨_, .inl rfl⟩
  · exact ⟨_, .inr rfl⟩
  · exact ⟨o.fileFaults, .inr rfl⟩

theorem withFile_fails {o : Overlay} {faults : List Bool} (go : Overlay → Overlay × Option HostAction)
    (h : o.fileFaults = true :: faults) : o.withFile go = ({ o with fileFaults := faults }, none) := by
  simp [Overlay.withFile, h]

theorem withFile_succeeds {o : Overlay} (go : Overlay → Overlay × Option HostAction)
    (h : o.fileFaults.headD false = false) : o.withFile go = go { o with fileFaults := o.fileFaults.tail } := by
  obtain ⟨lines, pending, snapshotFile, dumpFile, _ | ⟨fails, faults⟩⟩ := o
  · rfl
  · cases (show fails = false from h)
    rfl

/-- The host actions a command can perform on the block. -/
def Command.performs : Command → HostAction → Prop
  | .halt, act => act = .halt
  | .dump, act => act = .dump
  | .save, act => act = .save
  | .load, act => ∃ snap, act = .restore snap
  | .set addr value, act => act = .poke addr value
  | .malformedSet, _ => False

/-- A command leaves the lines and the pending line alone, and performs its own host action or none. -/
theorem runCommand_spec (o : Overlay) (s : State) (command : Command) :
    (o.runCommand s command).1.lines = o.lines ∧ (o.runCommand s command).1.pending = o.pending ∧
      ∀ act, (o.runCommand s command).2 = some act → command.performs act := by
  cases command with
  | halt | set | malformedSet => simp [Overlay.runCommand, Command.performs, eq_comm]
  | dump | save | load =>
    simp only [Overlay.runCommand]
    obtain ⟨faults, h | h⟩ := withFile_cases o _
    · rw [h]; simp
    · rw [h]
      first
        | (simp [Command.performs, eq_comm]; done)
        | (dsimp only; split <;> simp [Command.performs, eq_comm])

/-- Without a readable snapshot `!load` performs nothing. -/
theorem runCommand_load_unreadable {o : Overlay} (s : State) (h : o.snapshotFile.bind Snapshot.ofBytes? = none) :
    (o.runCommand s .load).2 = none := by
  simp only [Overlay.runCommand]
  obtain ⟨faults, e | e⟩ := withFile_cases o _
  · rw [e]
  · rw [e]; simp only [h]

end Sys2Proof.Machine
end

