-- ==== Sys2Proof/Laws/PerInstr.lean ====
section
/-! SUPPORT. Statements made instruction by instruction about the instruction as syntax. -/

namespace Sys2Proof.Laws

/-- The cells of an instruction are one opcode cell and its slots in order, 1 to 4 cells (R50, R52). -/
def Shape.Statement (i : Instr) : Prop :=
  (encode i).tail = (slotsOf i).map Prod.snd ∧ cellCount i = 1 + (slotsOf i).length ∧ cellCount i ≤ 4

/-- An instruction is well-formed exactly when the decoder rejects none of its slots (R58, R74). -/
def Slots.Statement (i : Instr) : Prop := i.wellFormed = true ↔ firstSlotError (slotsOf i) = none

theorem Shape.halt : Shape.Statement .halt := ⟨rfl, rfl, by simp [cellCount, encode]⟩
theorem Shape.set (a b : CodeUnit) : Shape.Statement (.set a b) := ⟨rfl, rfl, by simp [cellCount, encode]⟩
theorem Shape.push (a : CodeUnit) : Shape.Statement (.push a) := ⟨rfl, rfl, by simp [cellCount, encode]⟩
theorem Shape.pop (a : CodeUnit) : Shape.Statement (.pop a) := ⟨rfl, rfl, by simp [cellCount, encode]⟩
theorem Shape.eq (a b c : CodeUnit) : Shape.Statement (.eq a b c) := ⟨rfl, rfl, by simp [cellCount, encode]⟩
theorem Shape.gt (a b c : CodeUnit) : Shape.Statement (.gt a b c) := ⟨rfl, rfl, by simp [cellCount, encode]⟩
theorem Shape.jmp (a : CodeUnit) : Shape.Statement (.jmp a) := ⟨rfl, rfl, by simp [cellCount, encode]⟩
theorem Shape.jt (a b : CodeUnit) : Shape.Statement (.jt a b) := ⟨rfl, rfl, by simp [cellCount, encode]⟩
theorem Shape.jf (a b : CodeUnit) : Shape.Statement (.jf a b) := ⟨rfl, rfl, by simp [cellCount, encode]⟩
theorem Shape.add (a b c : CodeUnit) : Shape.Statement (.add a b c) := ⟨rfl, rfl, by simp [cellCount, encode]⟩
theorem Shape.mult (a b c : CodeUnit) : Shape.Statement (.mult a b c) := ⟨rfl, rfl, by simp [cellCount, encode]⟩
theorem Shape.mod (a b c : CodeUnit) : Shape.Statement (.mod a b c) := ⟨rfl, rfl, by simp [cellCount, encode]⟩
theorem Shape.and (a b c : CodeUnit) : Shape.Statement (.and a b c) := ⟨rfl, rfl, by simp [cellCount, encode]⟩
theorem Shape.or (a b c : CodeUnit) : Shape.Statement (.or a b c) := ⟨rfl, rfl, by simp [cellCount, encode]⟩
theorem Shape.not (a b : CodeUnit) : Shape.Statement (.not a b) := ⟨rfl, rfl, by simp [cellCount, encode]⟩
theorem Shape.rmem (a b : CodeUnit) : Shape.Statement (.rmem a b) := ⟨rfl, rfl, by simp [cellCount, encode]⟩
theorem Shape.wmem (a b : CodeUnit) : Shape.Statement (.wmem a b) := ⟨rfl, rfl, by simp [cellCount, encode]⟩
theorem Shape.call (a : CodeUnit) : Shape.Statement (.call a) := ⟨rfl, rfl, by simp [cellCount, encode]⟩
theorem Shape.ret : Shape.Statement .ret := ⟨rfl, rfl, by simp [cellCount, encode]⟩
theorem Shape.out (a : CodeUnit) : Shape.Statement (.out a) := ⟨rfl, rfl, by simp [cellCount, encode]⟩
theorem Shape.inp (a : CodeUnit) : Shape.Statement (.inp a) := ⟨rfl, rfl, by simp [cellCount, encode]⟩
theorem Shape.noop : Shape.Statement .noop := ⟨rfl, rfl, by simp [cellCount, encode]⟩

theorem Slots.halt : Slots.Statement .halt := by simp [Slots.Statement, Instr.wellFormed, slotsOf]
theorem Slots.set (a b : CodeUnit) : Slots.Statement (.set a b) := by simp [Slots.Statement, Instr.wellFormed, slotsOf]
theorem Slots.push (a : CodeUnit) : Slots.Statement (.push a) := by simp [Slots.Statement, Instr.wellFormed, slotsOf]
theorem Slots.pop (a : CodeUnit) : Slots.Statement (.pop a) := by simp [Slots.Statement, Instr.wellFormed, slotsOf]
theorem Slots.eq (a b c : CodeUnit) : Slots.Statement (.eq a b c) := by simp [Slots.Statement, Instr.wellFormed, slotsOf, and_assoc]
theorem Slots.gt (a b c : CodeUnit) : Slots.Statement (.gt a b c) := by simp [Slots.Statement, Instr.wellFormed, slotsOf, and_assoc]
theorem Slots.jmp (a : CodeUnit) : Slots.Statement (.jmp a) := by simp [Slots.Statement, Instr.wellFormed, slotsOf]
theorem Slots.jt (a b : CodeUnit) : Slots.Statement (.jt a b) := by simp [Slots.Statement, Instr.wellFormed, slotsOf]
theorem Slots.jf (a b : CodeUnit) : Slots.Statement (.jf a b) := by simp [Slots.Statement, Instr.wellFormed, slotsOf]
theorem Slots.add (a b c : CodeUnit) : Slots.Statement (.add a b c) := by simp [Slots.Statement, Instr.wellFormed, slotsOf, and_assoc]
theorem Slots.mult (a b c : CodeUnit) : Slots.Statement (.mult a b c) := by simp [Slots.Statement, Instr.wellFormed, slotsOf, and_assoc]
theorem Slots.mod (a b c : CodeUnit) : Slots.Statement (.mod a b c) := by simp [Slots.Statement, Instr.wellFormed, slotsOf, and_assoc]
theorem Slots.and (a b c : CodeUnit) : Slots.Statement (.and a b c) := by simp [Slots.Statement, Instr.wellFormed, slotsOf, and_assoc]
theorem Slots.or (a b c : CodeUnit) : Slots.Statement (.or a b c) := by simp [Slots.Statement, Instr.wellFormed, slotsOf, and_assoc]
theorem Slots.not (a b : CodeUnit) : Slots.Statement (.not a b) := by simp [Slots.Statement, Instr.wellFormed, slotsOf]
theorem Slots.rmem (a b : CodeUnit) : Slots.Statement (.rmem a b) := by simp [Slots.Statement, Instr.wellFormed, slotsOf]
theorem Slots.wmem (a b : CodeUnit) : Slots.Statement (.wmem a b) := by simp [Slots.Statement, Instr.wellFormed, slotsOf]
theorem Slots.call (a : CodeUnit) : Slots.Statement (.call a) := by simp [Slots.Statement, Instr.wellFormed, slotsOf]
theorem Slots.ret : Slots.Statement .ret := by simp [Slots.Statement, Instr.wellFormed, slotsOf]
theorem Slots.out (a : CodeUnit) : Slots.Statement (.out a) := by simp [Slots.Statement, Instr.wellFormed, slotsOf]
theorem Slots.inp (a : CodeUnit) : Slots.Statement (.inp a) := by simp [Slots.Statement, Instr.wellFormed, slotsOf]
theorem Slots.noop : Slots.Statement .noop := by simp [Slots.Statement, Instr.wellFormed, slotsOf]

end Sys2Proof.Laws
end

