-- ==== Sys2Proof/Laws/Step.lean ====
section
/-! SUPPORT. The cells a fetch reads, and what a step can do, said once: `step_running`, `step_waiting`, `step_stopped`. -/

namespace Sys2Proof.Machine

@[simp] theorem fetchLimit_eq : Config.fetchLimit = 32768 := rfl

theorem fetchCells_succ (m : Memory) (n : Nat) {a : Nat} (h : a < 32768) :
    fetchCells m (n + 1) a = m.lookup a :: fetchCells m n (a + 1) := by
  simp [fetchCells, h, Memory.read]

theorem fetchCells_past (m : Memory) (n : Nat) {a : Nat} (h : 32768 ≤ a) : fetchCells m n a = [] := by
  cases n with
  | zero => rfl
  | succ n => simp [fetchCells, show ¬ a < 32768 by omega]

theorem fetchCells_length (m : Memory) (n a : Nat) : (fetchCells m n a).length = min n (32768 - a) := by
  induction n generalizing a with
  | zero => simp [fetchCells]
  | succ n ih =>
    by_cases h : a < 32768
    · rw [fetchCells_succ m n h, List.length_cons, ih]; omega
    · rw [fetchCells_past m _ (Nat.not_lt.mp h), List.length_nil]; omega

theorem fetchCells_getElem? (m : Memory) (n a k : Nat) (hk : k < n) (h : a + k < 32768) :
    (fetchCells m n a)[k]? = some (m.lookup (a + k)) := by
  induction n generalizing a k with
  | zero => omega
  | succ n ih =>
    rw [fetchCells_succ m n (by omega)]
    cases k with
    | zero => simp
    | succ k =>
      rw [List.getElem?_cons_succ, ih _ _ (by omega) (by omega)]
      congr 2; omega

/-- The fetch of a pc at or above the fetch limit. -/
theorem fetch_past {s : State} (h : 32768 ≤ s.pc.toNat) : fetch s = .stopped (s.raise .pcOutOfRange s.pc) := by
  simp [fetch, show ¬ s.pc.toNat < 32768 by omega]

theorem fetch_ok {s : State} {i : Instr} {rest : List CodeUnit} (h : s.pc.toNat < 32768)
    (hd : decode (fetchCells s.mem 4 s.pc.toNat) = .ok (i, rest)) : fetch s = .run i s.count := by
  simp [fetch, h, hd]

theorem fetch_error {s : State} {e : DecodeError} (h : s.pc.toNat < 32768)
    (hd : decode (fetchCells s.mem 4 s.pc.toNat) = .error e) : fetch s = .stopped (s.count.raiseDecodeError e) := by
  simp [fetch, h, hd]

/-- What a step of a running engine can do: the uncounted fault of a pc out of range, a counted fault of the decoder, or an
instruction executed in the counted state. -/
theorem step_running {s t : State} (hr : s.status = .running) (h : step s = .next t) :
    (32768 ≤ s.pc.toNat ∧ t = s.raise .pcOutOfRange s.pc) ∨
    (s.pc.toNat < 32768 ∧ ∃ e, decode (fetchCells s.mem 4 s.pc.toNat) = .error e ∧ t = s.count.raiseDecodeError e) ∨
    (s.pc.toNat < 32768 ∧ ∃ i rest, decode (fetchCells s.mem 4 s.pc.toNat) = .ok (i, rest) ∧
      exec i s.count = .next t) := by
  simp only [step, hr] at h
  by_cases hp : s.pc.toNat < 32768
  · cases hd : decode (fetchCells s.mem 4 s.pc.toNat) with
    | error e =>
      rw [fetch_error hp hd] at h
      exact .inr (.inl ⟨hp, e, rfl, by simpa using h.symm⟩)
    | ok r =>
      obtain ⟨i, rest⟩ := r
      rw [fetch_ok hp hd] at h
      exact .inr (.inr ⟨hp, i, rest, rfl, h⟩)
  · rw [fetch_past (by omega)] at h
    exact .inl ⟨by omega, by simpa using h.symm⟩

/-- What a step of a waiting engine does. -/
theorem step_waiting {s : State} {d : Addr} (hw : s.status = .waitInput d) : step s = .next (s.serveWait d) := by
  simp [step, hw]

theorem serveWait_nil {s : State} (d : Addr) (h : s.hostQueue = []) : s.serveWait d = s := by simp [State.serveWait, h]

theorem serveWait_cons {s : State} (d : Addr) {act : HostAction} {rest : List HostAction}
    (h : s.hostQueue = act :: rest) : s.serveWait d = { s with hostQueue := rest }.hostAct d act := by
  simp [State.serveWait, h]

/-- A run of one step more: the step, then the rest of the run. -/
theorem run_succ {s t : State} (n : Nat) (h : step s = .next t) :
    Host.Core.run core (n + 1) s = Host.Core.run core n t := by
  simp only [Host.Core.run, core, h]

@[simp] theorem run_zero (s : State) : Host.Core.run core 0 s = .next s := rfl

end Sys2Proof.Machine
end

