-- ==== Sys2Proof/Tests/Slice0.lean ====
section
/-! SUPPORT. The model's own tests: the well-formedness smoke, decoding words written out from 30_encoding.md R53, single steps from
the vectors of 95_test_vectors.md, and for every statement with hypotheses a concrete case that meets them all. -/

namespace Sys2Proof.Tests

open Sys2Proof.Machine

/-! ### Helpers -/

def nextState? : Result → Option State
  | .next t => some t
  | .fault _ => none
  | .refused _ => none

/-- The next state of an answer that has one. -/
def after (r : Result) : State := (nextState? r).getD State.reset

theorem answers {r : Result} (h : (nextState? r).isSome = true) : r = .next (after r) := by
  cases r <;> simp_all [nextState?, after]

/-- Reset with a program's cells from address `pc` on, and registers set. -/
def placed (pc : Nat) (cells : List CodeUnit) (regs : List (RegNum × CodeUnit)) : State :=
  regs.foldl (fun s e => s.writeCell (regAddr e.1) e.2)
    { State.reset with pc := BitVec.ofNat 16 pc, mem := Memory.storeMain [] pc cells }

/-- Reset with a program's cells from address 0 on. -/
def prog (cells : List CodeUnit) : State := placed 0 cells []

/-- An engine that waits with latch `r0` and the given host actions to come. -/
def waitingWith (acts : List HostAction) : State :=
  { State.reset with status := .waitInput (regAddr 0), hostQueue := acts, cycles := 1 }

/-- The state after one step. -/
def stepOf (s : State) : State := after (step s)

/-! ### Well-formedness: an ill-formed term for each slot check -/

theorem test_wf_limits : validUnit 32775 = true ∧ validUnit 32776 = false ∧ validUnit 65535 = false := by decide

theorem test_ill_formed_one_slot :
    ([.push 32776, .pop 32776, .jmp 32776, .call 32776, .out 32776, .inp 32776] : List Instr).all
      (fun i => !i.wellFormed) = true := by decide

theorem test_ill_formed_slot_a :
    ([.set 32776 0, .jt 32776 0, .jf 32776 0, .not 32776 0, .rmem 32776 0, .wmem 32776 0, .eq 32776 0 0, .gt 32776 0 0,
      .add 32776 0 0, .mult 32776 0 0, .mod 32776 0 0, .and 32776 0 0, .or 32776 0 0] : List Instr).all
      (fun i => !i.wellFormed) = true := by decide

theorem test_ill_formed_slot_b :
    ([.set 0 32776, .jt 0 32776, .jf 0 32776, .not 0 32776, .rmem 0 32776, .wmem 0 32776, .eq 0 32776 0, .gt 0 32776 0,
      .add 0 32776 0, .mult 0 32776 0, .mod 0 32776 0, .and 0 32776 0, .or 0 32776 0] : List Instr).all
      (fun i => !i.wellFormed) = true := by decide

theorem test_ill_formed_slot_c :
    ([.eq 0 0 32776, .gt 0 0 32776, .add 0 0 32776, .mult 0 0 32776, .mod 0 0 32776, .and 0 0 32776, .or 0 0 32776] :
      List Instr).all (fun i => !i.wellFormed) = true := by decide

/-! ### Decoding words written out from R53 and R54 -/

theorem test_decode_move_stack :
    decode [0b0000000000000001, 0b1000000000000010, 0b0000010011010010] = .ok (.set 0x8002 1234, []) ∧
    decode [0b0000000000000010, 0b1000000000000111] = .ok (.push 0x8007, []) ∧
    decode [0b0000000000000011, 0b0000000000110010] = .ok (.pop 50, []) := ⟨rfl, rfl, rfl⟩

theorem test_decode_compare :
    decode [0b0000000000000100, 0b1000000000000000, 4, 5] = .ok (.eq 0x8000 4 5, []) ∧
    decode [0b0000000000000101, 0b1000000000000001, 0b1000000000000010, 0b0111111111111111] =
      .ok (.gt 0x8001 0x8002 0x7FFF, []) := ⟨rfl, rfl⟩

theorem test_decode_jump :
    decode [0b0000000000000110, 100] = .ok (.jmp 100, []) ∧
    decode [0b0000000000000111, 0b1000000000000000, 0b1000000000000001] = .ok (.jt 0x8000 0x8001, []) ∧
    decode [0b0000000000001000, 0b1000000000000001, 19] = .ok (.jf 0x8001 19, []) := ⟨rfl, rfl, rfl⟩

theorem test_decode_alu :
    decode [0b0000000000001001, 0b1000000000000000, 0x7FFF, 0x7FFE] = .ok (.add 0x8000 0x7FFF 0x7FFE, []) ∧
    decode [0b0000000000001010, 0b1000000000000011, 2, 100] = .ok (.mult 0x8003 2 100, []) ∧
    decode [0b0000000000001011, 0b1000000000000001, 0b1000000000000000, 3] = .ok (.mod 0x8001 0x8000 3, []) ∧
    decode [0b0000000000001100, 0b1000000000000001, 0b1000000000000000, 255] = .ok (.and 0x8001 0x8000 255, []) ∧
    decode [0b0000000000001101, 0b1000000000000010, 0b1000000000000001, 256] = .ok (.or 0x8002 0x8001 256, []) ∧
    decode [0b0000000000001110, 0b1000000000000000, 5] = .ok (.not 0x8000 5, []) := ⟨rfl, rfl, rfl, rfl, rfl, rfl⟩

theorem test_decode_load_store :
    decode [0b0000000000001111, 0b1000000000000011, 0b1000000000000000] = .ok (.rmem 0x8003 0x8000, []) ∧
    decode [0b0000000000010000, 34, 65] = .ok (.wmem 34 65, []) := ⟨rfl, rfl⟩

theorem test_decode_call_ret :
    decode [0b0000000000010001, 12, 7] = .ok (.call 12, [7]) ∧ decode [0b0000000000010010, 7] = .ok (.ret, [7]) := ⟨rfl, rfl⟩

theorem test_decode_io :
    decode [0b0000000000010011, 65] = .ok (.out 65, []) ∧
    decode [0b0000000000010100, 0b1000000000000000] = .ok (.inp 0x8000, []) := ⟨rfl, rfl⟩

theorem test_decode_system :
    decode [0b0000000000000000] = .ok (.halt, []) ∧ decode [0b0000000000010101] = .ok (.noop, []) := ⟨rfl, rfl⟩

/-- R57, R58, R71, R74: rejections by name (V2, V15, V16, V26). -/
theorem test_decode_rejects :
    decode [65535] = .error (.unknownOpcode 65535) ∧ decode [22, 40000] = .error (.unknownOpcode 22) ∧
    decode [] = .error .truncated ∧ decode [9, 0x8000, 1] = .error .truncated ∧
    decode [1, 40000, 50000] = .error (.addressOutOfRange 40000) ∧
    decode [4, 0x8000, 40000, 50000] = .error (.invalidOperand 40000) ∧
    decode [20, 32776] = .error (.addressOutOfRange 32776) := ⟨rfl, rfl, rfl, rfl, rfl, rfl, rfl⟩

/-- The opcode table's numbering: the opcode cell in bits 15..0, slot `a` in bits 31..16, slot `b` in bits 47..32. -/
theorem test_table_word : decodeTableWord 48 0x000580000001 = some (.set 0x8000 5) ∧
    decodeTableWord 16 21 = some .noop ∧ decodeTableWord 16 22 = none := by decide

theorem test_fetch_word : (stepOf (State.reset.withFetchWord 48 0x000580000001)).reg 0 = 5 := by decide

/-! ### Single steps: the vectors of 95_test_vectors.md -/

/-- V17. -/
theorem test_set_invalid_source : (stepOf (prog [1, 32768, 65535])).status = .faulted .invalidOperand 65535 := by decide

/-- V31: 16 bits copied, no mask. -/
theorem test_set_copies_whole : (stepOf (placed 0 [1, 32769, 32768] [(0, 40000)])).reg 1 = 40000 := by decide

/-- V36. -/
theorem test_push_on_top : (stepOf { placed 0 [2, 32771] [(3, 32775)] with stack := [1] }).stack = [1, 32775] := by decide

/-- V20: the destination before the empty stack. -/
theorem test_pop_checks_slot_first :
    (stepOf (prog [3, 32776])).status = .faulted .addressOutOfRange 32776 := by decide

/-- V38. -/
theorem test_pop_takes_top : (stepOf { prog [3, 32768] with stack := [4, 9] }).reg 0 = 9 ∧
    (stepOf { prog [3, 32768] with stack := [4, 9] }).stack = [4] := by decide

/-- V47: the sources are read before the write. -/
theorem test_eq_overlap : (stepOf (placed 0 [4, 32770, 32770, 32770] [(2, 123)])).reg 2 = 1 := by decide

/-- V48: 40000 and 7232 agree in 15 bits only. -/
theorem test_eq_all_bits : (stepOf (placed 0 [4, 32768, 32769, 7232] [(1, 40000), (0, 9)])).reg 0 = 0 := by decide

/-- V53: strict. -/
theorem test_gt_strict : (stepOf (placed 0 [5, 32768, 5, 5] [(0, 9)])).reg 0 = 0 := by decide

/-- V56: unsigned, all 16 bits. -/
theorem test_gt_unsigned : (stepOf (placed 0 [5, 32768, 32769, 32767] [(1, 32768)])).reg 0 = 1 := by decide

/-- V61: the jump succeeds, the next step faults uncounted. -/
theorem test_jmp_unchecked : (stepOf (placed 0 [6, 32768] [(0, 40000)])).pc = 40000 ∧
    (stepOf (placed 0 [6, 32768] [(0, 40000)])).status = .running := by decide

/-- V65. -/
theorem test_jt_any_bit : (stepOf (placed 0 [7, 32768, 32769] [(0, 32768), (1, 60)])).pc = 60 := by decide

/-- V22: the slot that is not used is still checked. -/
theorem test_jt_checks_both : (stepOf (prog [7, 0, 40000])).status = .faulted .invalidOperand 40000 := by decide

/-- V66, V67. -/
theorem test_jf_both_ways : (stepOf (prog [8, 0, 50])).pc = 50 ∧ (stepOf (prog [8, 1, 50])).pc = 3 := by decide

/-- V75. -/
theorem test_add_raw : (stepOf (placed 0 [9, 32768, 32769, 1] [(1, 40000)])).reg 0 = 7233 := by decide

/-- S8, V70. -/
theorem test_add_wraps : (stepOf (prog [9, 32768, 32767, 32767])).reg 0 = 32766 := by decide

/-- V83. -/
theorem test_mult_reduces : (stepOf (prog [10, 32768, 12345, 6789])).reg 0 = 22429 := by decide

/-- V84. -/
theorem test_mult_raw : (stepOf (placed 0 [10, 32768, 32769, 32769] [(1, 65535)])).reg 0 = 1 := by decide

/-- V95: the remainder is masked. -/
theorem test_mod_masks : (stepOf (placed 0 [11, 32768, 32769, 32770] [(1, 40000), (2, 50000)])).reg 0 = 7232 := by decide

/-- V92. -/
theorem test_mod_zero : (stepOf (prog [11, 32768, 5, 0])).status = .faulted .divideByZero 0 ∧
    (stepOf (prog [11, 32768, 5, 0])).cycles = 1 := by decide

/-- V102. -/
theorem test_and_masks : (stepOf (placed 0 [12, 32768, 32769, 32770] [(1, 32769), (2, 32771)])).reg 0 = 1 := by decide

/-- V99. -/
theorem test_and_bits : (stepOf (prog [12, 32768, 32512, 4080])).reg 0 = 3840 := by decide

/-- V106. -/
theorem test_or_masks : (stepOf (placed 0 [13, 32768, 32769, 1] [(1, 32768)])).reg 0 = 1 := by decide

/-- V103. -/
theorem test_or_bits : (stepOf (prog [13, 32768, 21845, 10922])).reg 0 = 32767 := by decide

/-- V111. -/
theorem test_not_bits : (stepOf (prog [14, 32768, 12345])).reg 0 = 20422 := by decide

/-- V112. -/
theorem test_not_masks : (stepOf (placed 0 [14, 32768, 32769] [(1, 32768)])).reg 0 = 32767 := by decide

/-- V122: the address is read before the write. -/
theorem test_rmem_overlap : (stepOf (placed 0 [15, 32768, 32768, 4321] [(0, 3)])).reg 0 = 4321 := by decide

/-- V126. -/
theorem test_rmem_past : (stepOf (placed 0 [15, 32768, 32769] [(1, 32776)])).status =
    .faulted .addressOutOfRange 32776 := by decide

/-- V130: the address 32771 is `r3`. -/
theorem test_wmem_register : (stepOf (placed 0 [16, 32768, 9] [(0, 32771)])).reg 3 = 9 := by decide

/-- V25: both slots of `wmem` are sources. -/
theorem test_wmem_sources : (stepOf (prog [16, 32776, 1])).status = .faulted .invalidOperand 32776 := by decide

/-- V142. -/
theorem test_call_return_address : (stepOf (placed 32766 [17, 100] [])).stack = [32768] ∧
    (stepOf (placed 32766 [17, 100] [])).pc = 100 := by decide

/-- V144. -/
theorem test_ret_takes_top : (stepOf { prog [18] with stack := [7, 1234] }).pc = 1234 ∧
    (stepOf { prog [18] with stack := [7, 1234] }).stack = [7] := by decide

/-- V145, S10. -/
theorem test_ret_empty : (stepOf (prog [18])).status = .halted ∧ (stepOf (prog [18])).pc = 1 := by decide

/-- V152. -/
theorem test_out_whole : (stepOf (placed 0 [19, 32768] [(0, 65535)])).output = [65535] := by decide

/-- V156. -/
theorem test_in_suspends : (stepOf (prog [20, 32768])).status = .waitInput 32768 ∧
    (stepOf (prog [20, 32768])).pc = 0 ∧ (stepOf (prog [20, 32768])).cycles = 1 := by decide

/-- V154. -/
theorem test_in_delivered : (stepOf { prog [20, 40] with hostQueue := [.deliver 10] }).read 40 = 10 ∧
    (stepOf { prog [20, 40] with hostQueue := [.deliver 10] }).pc = 2 := by decide

/-- V153 under an endless input. -/
theorem test_in_endless_input : (after ((prog [20, 32768]).fedRun (answersOnly fun _ => some 65) 1)).reg 0 = 65 := by decide

/-- V9. -/
theorem test_halt_at_last_cell : (stepOf (placed 32767 [0] [])).status = .halted ∧
    (stepOf (placed 32767 [0] [])).pc = 32768 := by decide

/-- V8. -/
theorem test_noop_at_last_cell : stepOf (placed 32767 [21] []) =
    { placed 32767 [21] [] with pc := 32768, cycles := 1 } := by decide

/-- V5: the unknown opcode before the operand-range check. -/
theorem test_unknown_at_last_cell : (stepOf (placed 32767 [22] [])).status = .faulted .unknownOpcode 22 := by decide

/-- V14, V13: the last `add` that fits, and one cell further. -/
theorem test_add_at_the_limit : (stepOf (placed 32764 [9, 32768, 1, 1] [])).reg 0 = 2 ∧
    (stepOf (placed 32765 [9, 32768, 1] [])).status = .faulted .pcOutOfRange 32765 := by decide

/-- R205: the image of S7, with an odd byte at its end. -/
theorem test_load_image : State.reset.loadImage [0x13, 0x00, 0x41, 0x00, 0x00, 0x00, 0xFF] = some (prog [19, 65, 0]) := by decide

/-- R146: the load is refused once a step has been taken, and after the end. -/
theorem test_load_image_refused : (stepOf (prog [21])).loadImage [0x15, 0x00] = none ∧
    (stepOf (prog [0])).loadImage [0x15, 0x00] = none := by decide

/-- R155 on V156: the port of a waiting engine. -/
theorem test_status_port : (stepOf (prog [20, 32768])).statusPort =
    { status := .waitInput, cause := none, info := none, pc := 0, cycles := 1, depth := 0 } := by decide

/-- H3: the scalars of a snapshot file are `0A 00`, `01 00 00 00`, `07 00`. -/
theorem test_snapshot_scalars : unitBytes 10 = [0x0A, 0x00] ∧ countBytes 1 = [0x01, 0x00, 0x00, 0x00] ∧
    bytesOfUnits [7] = [0x07, 0x00] := by decide

/-- R156: a `!save` whose file access fails writes no file and performs no action. -/
theorem test_save_fails : Overlay.runCommand ⟨[], [], none, none, [true, false]⟩ State.reset .save =
    (⟨[], [], none, none, [false]⟩, none) := by decide

/-- S11: the line "!set 32768 5" pokes r0, leaves the engine waiting and is no input. -/
theorem test_overlay_set :
    parseCommand [33, 115, 101, 116, 32, 51, 50, 55, 54, 56, 32, 53] = some (.set 32768 5) ∧
    parseCommand [72, 105] = none ∧ parseCommand [33, 115, 101, 116, 32, 53] = some .malformedSet := by decide

/-! ### Witnesses: a case that meets the hypotheses of each statement together, clause by clause at its boundary

The name after `test_witness_` is the statement's. -/

theorem test_witness_DecodeOfEncode :
    (Instr.add 32768 32767 32775).wellFormed = true ∧ Instr.ret.wellFormed = true := by decide

theorem test_witness_EncodeOfDecode : decode [16, 32775, 0, 9] = .ok (.wmem 32775 0, [9]) := rfl

theorem test_witness_UnknownOpcodeFaults :
    ((prog [22]).status = .running ∧ (prog [22]).pc.toNat ≤ 32767 ∧
      21 < ((prog [22]).mem.lookup (prog [22]).pc.toNat).toNat) ∧
    ((placed 32767 [65535] []).status = .running ∧ (placed 32767 [65535] []).pc.toNat ≤ 32767 ∧
      21 < ((placed 32767 [65535] []).mem.lookup (placed 32767 [65535] []).pc.toNat).toNat) := by decide

theorem test_witness_FirstInvalidSlotIsReported :
    firstSlotError [(.dest, 5), (.source, 32776), (.dest, 40000)] = some (.invalidOperand 32776) ∧
    firstSlotError [(.dest, 32776), (.source, 40000)] = some (.addressOutOfRange 32776) ∧
    firstSlotError [(.dest, 32775), (.source, 32775)] = none := by decide

theorem test_witness_InvalidSlotStopsInstruction :
    firstSlotError (slotsOf (.set 40000 50000)) = some (.addressOutOfRange 40000) ∧
    firstSlotError (slotsOf (.wmem 1 32776)) = some (.invalidOperand 32776) := by decide

theorem test_witness_StepRunsDecodedInstruction :
    ((Instr.add 32768 1 1).wellFormed = true ∧ AtInstr (.add 32768 1 1) (placed 32764 [9, 32768, 1, 1] [])) ∧
    (Instr.noop.wellFormed = true ∧ AtInstr .noop (placed 32767 [21] [])) := by unfold AtInstr; decide

theorem test_witness_StepFaultsOnInvalidSlot :
    (AtInstr (.set 40000 50000) (prog [1, 40000, 50000]) ∧
      firstSlotError (slotsOf (.set 40000 50000)) = some (.addressOutOfRange 40000) ∧
      slotsOf (.set 40000 50000) = [] ++ (.dest, 40000) :: [(.source, 50000)] ∧ 32775 < (40000#16).toNat) ∧
    (AtInstr (.set 32775 32776) (prog [1, 32775, 32776]) ∧
      slotsOf (.set 32775 32776) = [(.dest, 32775)] ++ (.source, 32776) :: [] ∧
      (∀ p ∈ [(SlotKind.dest, (32775 : CodeUnit))], p.2.toNat ≤ 32775) ∧ 32775 < (32776#16).toNat) := by
  unfold AtInstr; decide

theorem test_witness_PcPastLimitFaultsUncounted :
    ((placed 32768 [] []).status = .running ∧ 32768 ≤ (placed 32768 [] []).pc.toNat) ∧
    ((placed 65535 [] []).status = .running ∧ 32768 ≤ (placed 65535 [] []).pc.toNat) := by decide

theorem test_witness_SlotsPastLimitFaultCounted :
    ((placed 32765 [9, 32768, 1] []).status = .running ∧ (placed 32765 [9, 32768, 1] []).pc.toNat ≤ 32767 ∧
      32768 < (placed 32765 [9, 32768, 1] []).pc.toNat + cellCount (.add 32768 1 0) ∧
      (placed 32765 [9, 32768, 1] []).mem.lookup (placed 32765 [9, 32768, 1] []).pc.toNat =
        (encode (.add 32768 1 0)).headD 0#16) := by decide

theorem test_witness_StoppedOrWaitingTakesNoStep :
    ({ State.reset with status := .halted } : State).status = .halted ∧
    ({ State.reset with status := .faulted .divideByZero 0 } : State).status = .faulted .divideByZero 0 ∧
    ((waitingWith [.deliver 65]).status = .waitInput (regAddr 0) ∧
      step (waitingWith [.deliver 65]) = .next (stepOf (waitingWith [.deliver 65]))) ∧
    ((waitingWith []).status = .waitInput (regAddr 0) ∧ (waitingWith []).hostQueue = [] ∧
      step (waitingWith []) = .next (stepOf (waitingWith []))) :=
  ⟨rfl, rfl, ⟨rfl, answers (by decide)⟩, rfl, rfl, answers (by decide)⟩

/-- An endless sequence of answers whose first comes late. -/
def lateAnswers (n : Nat) : Option CodeUnit := if n = 0 then none else some 65

theorem test_witness_StepAlwaysAnswersNext :
    (prog [20, 32768]).fedRun (answersOnly lateAnswers) 1 =
      .next (after ((prog [20, 32768]).fedRun (answersOnly lateAnswers) 1)) ∧
    (after ((prog [20, 32768]).fedRun (answersOnly lateAnswers) 1)).status = .waitInput 32768 ∧
    (after ((prog [20, 32768]).fedRun (answersOnly lateAnswers) 1)).hostQueue = [] ∧ lateAnswers 1 = some 65 :=
  ⟨answers (by decide), by decide, by decide, by decide⟩

theorem test_witness_FaultsArePrecise :
    ((prog [3, 32768]).status = .running ∧ step (prog [3, 32768]) = .next (stepOf (prog [3, 32768])) ∧
      (stepOf (prog [3, 32768])).status = .faulted .stackUnderflow 0) ∧
    ((placed 32768 [] []).status = .running ∧ step (placed 32768 [] []) = .next (stepOf (placed 32768 [] [])) ∧
      (stepOf (placed 32768 [] [])).status = .faulted .pcOutOfRange 32768) :=
  ⟨⟨by decide, answers (by decide), by decide⟩, by decide, answers (by decide), by decide⟩

theorem test_witness_CyclesCountFetches :
    step (prog [21]) = .next (stepOf (prog [21])) ∧
    step (placed 32768 [] []) = .next (stepOf (placed 32768 [] [])) := ⟨answers (by decide), answers (by decide)⟩

theorem test_witness_AtMostOneCellChanges :
    ((prog [16, 3, 21]).status = .running ∧ step (prog [16, 3, 21]) = .next (stepOf (prog [16, 3, 21])) ∧
      AtInstr (.wmem 3 21) (prog [16, 3, 21]) ∧ storedAddr? (prog [16, 3, 21]) (.wmem 3 21) = some 3) ∧
    ((prog [20, 32775]).status = .running ∧ step (prog [20, 32775]) = .next (stepOf (prog [20, 32775])) ∧
      AtInstr (.inp 32775) (prog [20, 32775]) ∧ storedAddr? (prog [20, 32775]) (.inp 32775) = some 32775 ∧
      (stepOf (prog [20, 32775])).status ≠ .running) ∧
    (step (placed 32768 [] []) = .next (stepOf (placed 32768 [] [])) ∧ ∀ i, ¬ AtInstr i (placed 32768 [] [])) := by
  refine ⟨⟨by decide, answers (by decide), by unfold AtInstr; decide, by decide⟩,
    ⟨by decide, answers (by decide), by unfold AtInstr; decide, by decide, by decide⟩, answers (by decide), fun i h => ?_⟩
  have hp : (placed 32768 [] []).pc.toNat = 32768 := by decide
  have hc := h.2.1
  cases i <;> simp [hp, cellCount, encode] at hc

theorem test_witness_OutputGrowsOnlyByOut :
    step (prog [19, 65]) = .next (stepOf (prog [19, 65])) ∧ (stepOf (prog [19, 65])).output ≠ (prog [19, 65]).output :=
  ⟨answers (by decide), by decide⟩

theorem test_witness_StackChangesOnlyByStackInstructions :
    (prog [17, 100]).status = .running ∧ step (prog [17, 100]) = .next (stepOf (prog [17, 100])) ∧
      (stepOf (prog [17, 100])).stack ≠ (prog [17, 100]).stack := ⟨by decide, answers (by decide), by decide⟩

theorem test_witness_PcAdvancesByCellCount :
    ((prog [1, 0, 1]).status = .running ∧ (prog [1, 0, 1]).pc.toNat + cellCount (.set 0 1) ≤ 32768 ∧
      exec (.set 0 1) (prog [1, 0, 1]) = .next (after (exec (.set 0 1) (prog [1, 0, 1]))) ∧
      (after (exec (.set 0 1) (prog [1, 0, 1]))).status = .running) ∧
    ((placed 32767 [0] []).status = .running ∧ (placed 32767 [0] []).pc.toNat + cellCount .halt ≤ 32768 ∧
      exec .halt (placed 32767 [0] []) = .next (after (exec .halt (placed 32767 [0] []))) ∧
      (after (exec .halt (placed 32767 [0] []))).status = .halted) :=
  ⟨⟨by decide, by decide, answers (by decide), by decide⟩, by decide, by decide, answers (by decide), by decide⟩

theorem test_witness_NormalEndsAreThree :
    ((prog [0]).status ≠ .halted ∧ step (prog [0]) = .next (stepOf (prog [0])) ∧ (stepOf (prog [0])).status = .halted) ∧
    ((prog [18]).status ≠ .halted ∧ step (prog [18]) = .next (stepOf (prog [18])) ∧
      (stepOf (prog [18])).status = .halted) ∧
    ((waitingWith [.halt]).status ≠ .halted ∧ step (waitingWith [.halt]) = .next (stepOf (waitingWith [.halt])) ∧
      (stepOf (waitingWith [.halt])).status = .halted) :=
  ⟨⟨by decide, answers (by decide), by decide⟩, ⟨by decide, answers (by decide), by decide⟩, by decide, answers (by decide), by decide⟩

theorem test_witness_StepKeepsInvariant :
    (waitingWith [.restore (prog [1, 2, 3]).snapshot]).inv = true ∧
      step (waitingWith [.restore (prog [1, 2, 3]).snapshot]) =
        .next (stepOf (waitingWith [.restore (prog [1, 2, 3]).snapshot])) := ⟨by decide, answers (by decide)⟩

theorem test_witness_CyclesAndOutputAreNeverRead :
    step (prog [19, 65]) = .next (stepOf (prog [19, 65])) := answers (by decide)

theorem test_witness_ResolverRule :
    (32767#16).toNat ≤ 32767 ∧ 32775 < (32776#16).toNat ∧ (7 : RegNum).val = 7 := by decide

theorem test_witness_SetThenResolve : (32775#16).toNat ≤ 32775 := by decide

theorem test_witness_RegistersAreCells :
    (32768#16).toNat ≤ 32775 ∧ (5#16).toNat ≤ 32775 ∧
      (sourceValue (placed 0 [] [(0, 32775)]) 32768).toNat = 32768 + (7 : RegNum).val := by decide

theorem test_witness_SetResult : (32775#16).toNat ≤ 32775 ∧ (32767#16).toNat ≤ 32775 := by decide

theorem test_witness_PushResult : (32775#16).toNat ≤ 32775 := by decide

theorem test_witness_PopResult :
    (32775#16).toNat ≤ 32775 ∧ ({ State.reset with stack := [9] } : State).stack = [] ++ [9] ∧ State.reset.stack = [] := by decide

theorem test_witness_FiniteStackOverflows :
    ({ State.reset with stack := [1, 2] } : State).depth = 2 ∧ ({ State.reset with stack := [1, 2] } : State).depth < 3 := by decide

theorem test_witness_CompareResults :
    (32775#16).toNat ≤ 32775 ∧ (32768#16).toNat ≤ 32775 ∧ (0#16).toNat ≤ 32775 := by decide

theorem test_witness_JmpResult : (32775#16).toNat ≤ 32775 := by decide

theorem test_witness_ConditionalJumpResults : (32775#16).toNat ≤ 32775 ∧ (0#16).toNat ≤ 32775 := by decide

theorem test_witness_AddResult : (32775#16).toNat ≤ 32775 ∧ (32767#16).toNat ≤ 32775 ∧ (1#16).toNat ≤ 32775 := by decide

theorem test_witness_MultResult : (32775#16).toNat ≤ 32775 ∧ (32767#16).toNat ≤ 32775 ∧ (2#16).toNat ≤ 32775 := by decide

theorem test_witness_ModResult :
    ((32768#16).toNat ≤ 32775 ∧ (7#16).toNat ≤ 32775 ∧ (1#16).toNat ≤ 32775 ∧
      (sourceValue State.reset 1).toNat ≠ 0) ∧
    ((32768#16).toNat ≤ 32775 ∧ (7#16).toNat ≤ 32775 ∧ (32775#16).toNat ≤ 32775 ∧
      (sourceValue State.reset 32775).toNat = 0) := by decide

theorem test_witness_AndResult : (32775#16).toNat ≤ 32775 ∧ (32767#16).toNat ≤ 32775 ∧ (32768#16).toNat ≤ 32775 := by decide

theorem test_witness_OrResult : (32775#16).toNat ≤ 32775 ∧ (32767#16).toNat ≤ 32775 ∧ (32768#16).toNat ≤ 32775 := by decide

theorem test_witness_NotResult :
    ((32775#16).toNat ≤ 32775 ∧ (32767#16).toNat ≤ 32775 ∧ (sourceValue State.reset 32767).toNat ≤ 32767) ∧
    ((32775#16).toNat ≤ 32775 ∧ (32768#16).toNat ≤ 32775 ∧
      32767 < (sourceValue (placed 0 [] [(0, 32768)]) 32768).toNat) := by decide

theorem test_witness_ComputedResultsAreWords :
    (Instr.add 5 32768 1 ∈ ([.add 5 32768 1, .mult 5 32768 1, .mod 5 32768 1, .and 5 32768 1, .or 5 32768 1, .not 5 32768] :
        List Instr) ∧
      exec (.add 5 32768 1) (placed 0 [] [(0, 65535)]) = .next (after (exec (.add 5 32768 1) (placed 0 [] [(0, 65535)])))) ∧
    (Instr.mod 5 7 0 ∈ ([.add 5 7 0, .mult 5 7 0, .mod 5 7 0, .and 5 7 0, .or 5 7 0, .not 5 7] : List Instr) ∧
      exec (.mod 5 7 0) State.reset = .next (after (exec (.mod 5 7 0) State.reset))) :=
  ⟨⟨by decide, answers (by decide)⟩, by decide, answers (by decide)⟩

theorem test_witness_RmemResult :
    ((32775#16).toNat ≤ 32775 ∧ (32768#16).toNat ≤ 32775 ∧
      (32775 : Addr).val = (sourceValue (placed 0 [] [(0, 32775)]) 32768).toNat) ∧
    ((32775#16).toNat ≤ 32775 ∧ (32768#16).toNat ≤ 32775 ∧
      32775 < (sourceValue (placed 0 [] [(0, 32776)]) 32768).toNat) := by decide

theorem test_witness_WmemResult :
    ((32768#16).toNat ≤ 32775 ∧ (9#16).toNat ≤ 32775 ∧ (sourceValue (placed 0 [] [(0, 32775)]) 32768).toNat ≤ 32775) ∧
    ((32768#16).toNat ≤ 32775 ∧ (9#16).toNat ≤ 32775 ∧
      32775 < (sourceValue (placed 0 [] [(0, 32776)]) 32768).toNat) := by decide

theorem test_witness_StoreIsSeenByNextFetch :
    (AtInstr (.pop 2) { prog [3, 2, 0] with stack := [21] } ∧
      step { prog [3, 2, 0] with stack := [21] } = .next (stepOf { prog [3, 2, 0] with stack := [21] }) ∧
      (stepOf { prog [3, 2, 0] with stack := [21] }).status = .running ∧
      storedAddr? { prog [3, 2, 0] with stack := [21] } (.pop 2) = some 2 ∧
      (2 : Addr).val = (prog [3, 2, 0]).pc.toNat + cellCount (.pop 2) ∧
      Instr.noop.wellFormed = true ∧ (encode .noop).headD 0#16 = (stepOf { prog [3, 2, 0] with stack := [21] }).read 2) ∧
    21 < ((stepOf { prog [3, 2, 0] with stack := [22] }).read 2).toNat ∧
    (AtInstr (.wmem 32767 5) (placed 32764 [16, 32767, 5] []) ∧ (32767#16).toNat ≤ 32775 ∧ (5#16).toNat ≤ 32775 ∧
      (sourceValue (placed 32764 [16, 32767, 5] []) 32767).toNat = (placed 32764 [16, 32767, 5] []).pc.toNat + 3 ∧
      (placed 32764 [16, 32767, 5] []).pc.toNat + 3 ≤ 32767) ∧
    (AtInstr (.set 3 21) (prog [1, 3, 21]) ∧ (21#16).toNat ≤ 32775 ∧ (3#16).toNat = (prog [1, 3, 21]).pc.toNat + 3) := by
  refine ⟨⟨?_, answers (by decide), by decide, by decide, by decide, by decide, by decide⟩, by decide, ?_, ?_⟩ <;>
    unfold AtInstr <;> decide

theorem test_witness_CallResult : (32775#16).toNat ≤ 32775 := by decide

theorem test_witness_RetResult :
    ({ State.reset with stack := [7, 1234] } : State).stack = [7] ++ [1234] ∧ State.reset.stack = [] := by decide

theorem test_witness_CallThenRetReturns : (32775#16).toNat ≤ 32775 := by decide

theorem test_witness_OutResult : (32775#16).toNat ≤ 32775 := by decide

theorem test_witness_InResult :
    ((32775 : Addr).val = (32775#16).toNat ∧
      ({ placed 65535 [] [] with hostQueue := [.deliver 65535] } : State).hostQueue = .deliver 65535 :: []) ∧
    ({ placed 65533 [] [] with hostQueue := [.deliver 0] } : State).pc.toNat < 65534 ∧
    ((40 : Addr).val = (40#16).toNat ∧ ∀ v rest, State.reset.hostQueue ≠ .deliver v :: rest) :=
  ⟨by decide, by decide, by decide, fun _ _ h => by simp [State.reset] at h⟩

theorem test_witness_DeliveryCompletesInput :
    (({ waitingWith [.deliver 65535] with pc := 65533 } : State).status = .waitInput (regAddr 0) ∧
      ({ waitingWith [.deliver 65535] with pc := 65533 } : State).hostQueue = .deliver 65535 :: [] ∧
      ({ waitingWith [.deliver 65535] with pc := 65533 } : State).pc.toNat < 65534) ∧
    (({ waitingWith [.deliver 65535] with pc := 65534 } : State).status = .waitInput (regAddr 0) ∧
      ({ waitingWith [.deliver 65535] with pc := 65534 } : State).hostQueue = .deliver 65535 :: [] ∧
      ¬ ({ waitingWith [.deliver 65535] with pc := 65534 } : State).pc.toNat < 65534) := by decide

theorem test_witness_NoopResult :
    AtInstr .noop (placed 32767 [21] []) ∧ (placed 32767 [21] []).pc.toNat = 32767 ∧ AtInstr .noop (prog [21]) := by
  unfold AtInstr; decide

theorem test_witness_HostActionsWhileWaiting :
    ((waitingWith [.halt]).status = .waitInput (regAddr 0) ∧ (waitingWith [.halt]).hostQueue = .halt :: []) ∧
    ((waitingWith [.poke 32775 5]).hostQueue = .poke 32775 5 :: [] ∧ (32775#16).toNat ≤ 32775) ∧
    ((waitingWith [.poke 32776 5]).hostQueue = .poke 32776 5 :: [] ∧ 32775 < (32776#16).toNat) ∧
    (waitingWith [.restore State.reset.snapshot]).hostQueue = .restore State.reset.snapshot :: [] ∧
    (waitingWith [.dump]).hostQueue = .dump :: [] ∧ (waitingWith [.save]).hostQueue = .save :: [] := by decide

theorem test_witness_LatchSurvivesHostActions :
    (waitingWith [.poke 32768 5, .save, .restore (prog [21]).snapshot, .deliver 65]).status = .waitInput (regAddr 0) ∧
      (waitingWith [.poke 32768 5, .save, .restore (prog [21]).snapshot, .deliver 65]).hostQueue =
        [.poke 32768 5, .save, .restore (prog [21]).snapshot] ++ .deliver 65 :: [] ∧
      (∀ w, .deliver w ∉ ([.poke 32768 5, .save, .restore (prog [21]).snapshot] : List HostAction)) ∧
      .halt ∉ ([.poke 32768 5, .save, .restore (prog [21]).snapshot] : List HostAction) :=
  ⟨rfl, rfl, by simp, by simp⟩

theorem test_witness_LoaderPlacesImage :
    (State.reset.beforeFirstStep = true ∧ (List.replicate 65537 0#8).length / 2 ≤ 32768) ∧
    (State.reset.beforeFirstStep = true ∧ 32768 < (List.replicate 65538 0#8).length / 2) ∧
    ((waitingWith []).beforeFirstStep = false ∧ (stepOf (prog [21])).beforeFirstStep = false) ∧
    ((∀ d, (waitingWith [.deliver 65]).status = .waitInput d → 0 < (waitingWith [.deliver 65]).cycles) ∧
      step (waitingWith [.deliver 65]) = .next (stepOf (waitingWith [.deliver 65]))) :=
  ⟨⟨by decide, by rw [List.length_replicate]⟩, ⟨by decide, by rw [List.length_replicate]; decide⟩, by decide,
    fun _ _ => by decide, answers (by decide)⟩

theorem test_witness_SaveThenLoadIsIdentity :
    Memory.wf (placed 0 [1, 2, 3] [(7, 65535)]).mem = true ∧ (placed 0 [1, 2, 3] [(7, 65535)]).depth < 2 ^ 32 := by decide

/-- A block that waits behind the given overlay. -/
def vmWith (o : Overlay) : Vm := { overlay := o, block := waitingWith [] }

theorem test_witness_OverlayFeedsTheGuest :
    (vmWith ⟨[], [72], none, none, []⟩).block.status = .waitInput (regAddr 0) ∧
    (vmWith ⟨[], [72], none, none, []⟩).block.hostQueue = [] ∧ (vmWith ⟨[], [72], none, none, []⟩).overlay.pending = 72 :: [] ∧
    ((vmWith ⟨[[72, 105]], [], none, none, []⟩).overlay.pending = [] ∧
      (vmWith ⟨[[72, 105]], [], none, none, []⟩).overlay.lines = [72, 105] :: [] ∧ parseCommand [72, 105] = none) ∧
    ((vmWith ⟨[[33, 104, 97, 108, 116]], [], none, none, []⟩).overlay.lines = [33, 104, 97, 108, 116] :: [] ∧
      parseCommand [33, 104, 97, 108, 116] = some .halt) ∧
    parseCommand [33, 115, 101, 116, 32, 53] = some .malformedSet := by decide

/-- Six header bytes of 0 and 65552 bytes of memory are a snapshot file with an empty stack. -/
theorem readable_snapshot (rest : List Byte) (h : rest.length = 65552) :
    ∃ snap, Snapshot.ofBytes? (0 :: 0 :: 0 :: 0 :: 0 :: 0 :: rest) = some snap := ⟨_, if_pos (by rw [h]; rfl)⟩

/-- The command clauses of `OverlayFeedsTheGuest`. -/
theorem test_witness_OverlayFeedsTheGuest_commands :
    (parseCommand [33, 115, 101, 116, 32, 51, 50, 55, 55, 53, 32, 53] = some (.set 32775 5) ∧ (32775#16).toNat ≤ 32775) ∧
    (parseCommand [33, 115, 101, 116, 32, 51, 50, 55, 55, 54, 32, 53] = some (.set 32776 5) ∧ 32775 < (32776#16).toNat) ∧
    (parseCommand [33, 100, 117, 109, 112] = some .dump ∧ ([] : List Bool).headD false = false ∧
      [false, true].headD false = false) ∧
    (parseCommand [33, 115, 97, 118, 101] = some .save ∧ ∃ bytes, (waitingWith []).snapshot.toBytes? = some bytes) ∧
    (parseCommand [33, 108, 111, 97, 100] = some .load ∧
      ∃ snap, Snapshot.ofBytes? (0 :: 0 :: 0 :: 0 :: 0 :: 0 :: List.replicate 65552 0) = some snap) :=
  ⟨by decide, by decide, by decide, ⟨by decide, _, if_pos (by decide)⟩, by decide,
    readable_snapshot _ List.length_replicate⟩

theorem test_witness_FailedLoadLeavesBlock :
    (vmWith ⟨[[33, 108, 111, 97, 100]], [], some [0], none, [true]⟩).block.status = .waitInput (regAddr 0) ∧
    (vmWith ⟨[[33, 108, 111, 97, 100]], [], some [0], none, [true]⟩).block.hostQueue = [] ∧
    (vmWith ⟨[[33, 108, 111, 97, 100]], [], some [0], none, [true]⟩).overlay.pending = [] ∧
    (vmWith ⟨[[33, 108, 111, 97, 100]], [], some [0], none, [true]⟩).overlay.lines = [33, 108, 111, 97, 100] :: [] ∧
    parseCommand [33, 108, 111, 97, 100] = some .load ∧
    (vmWith ⟨[[33, 108, 111, 97, 100]], [], some [0], none, [true]⟩).overlay.snapshotFile.bind Snapshot.ofBytes? = none ∧
    Command.load ∈ [Command.dump, .save, .load] ∧
    (vmWith ⟨[[33, 108, 111, 97, 100]], [], some [0], none, [true]⟩).overlay.fileFaults = true :: [] := by decide

theorem test_witness_StatusPortAndFaultRecord :
    (stepOf (prog [11, 32768, 5, 0])).status = .faulted .divideByZero 0 ∧
    (∀ cause info, (prog [21]).status ≠ .faulted cause info) ∧ (waitingWith []).status = .waitInput (regAddr 0) :=
  ⟨by decide, fun _ _ h => (show Status.running ≠ .faulted _ _ by simp) h, rfl⟩

end Sys2Proof.Tests
end

/-! Proofs about the state of the machine (10_state.md). Each part begins with the lemmas its statement turns on; what the decoder
reads, the case split of a step and the host's actions come first, since the parts share them. -/

/-! ### What the decoder reads -/

namespace Sys2Proof

variable {cells rest : List CodeUnit} {i : Instr}

theorem readSlots1_ok {f : CodeUnit → Instr} (h : readSlots1 f cells = .ok (i, rest)) :
    ∃ a, i = f a ∧ cells = a :: rest := by
  unfold readSlots1 at h
  split at h
  · cases h; exact ⟨_, rfl, rfl⟩
  · cases h

theorem readSlots2_ok {f : CodeUnit → CodeUnit → Instr} (h : readSlots2 f cells = .ok (i, rest)) :
    ∃ a b, i = f a b ∧ cells = a :: b :: rest := by
  unfold readSlots2 at h
  split at h
  · cases h; exact ⟨_, _, rfl, rfl⟩
  · cases h

theorem readSlots3_ok {f : CodeUnit → CodeUnit → CodeUnit → Instr} (h : readSlots3 f cells = .ok (i, rest)) :
    ∃ a b c, i = f a b c ∧ cells = a :: b :: c :: rest := by
  unfold readSlots3 at h
  split at h
  · cases h; exact ⟨_, _, _, rfl, rfl⟩
  · cases h

/-- The cells the opcode map takes are those of the instruction it gives (R53). -/
theorem cells_of_readInstr (h : readInstr cells = .ok (i, rest)) : cells = encode i ++ rest := by
  cases cells with
  | nil => cases h
  | cons op tail =>
    have hop : op = BitVec.ofNat 16 op.toNat := by simp
    simp only [readInstr] at h
    split at h
    case h_1 he | h_19 he | h_22 he => cases h; rw [hop, he]; rfl
    case h_23 => cases h
    case h_3 he | h_4 he | h_7 he | h_18 he | h_20 he | h_21 he =>
      obtain ⟨a, rfl, rfl⟩ := readSlots1_ok h
      rw [hop, he]; rfl
    case h_2 he | h_8 he | h_9 he | h_15 he | h_16 he | h_17 he =>
      obtain ⟨a, b, rfl, rfl⟩ := readSlots2_ok h
      rw [hop, he]; rfl
    case h_5 he | h_6 he | h_10 he | h_11 he | h_12 he | h_13 he | h_14 he =>
      obtain ⟨a, b, c, rfl, rfl⟩ := readSlots3_ok h
      rw [hop, he]; rfl

/-- What the decoder accepts is what the opcode map reads, with no invalid slot (R70 point 7). -/
theorem readInstr_of_decode (h : decode cells = .ok (i, rest)) :
    readInstr cells = .ok (i, rest) ∧ firstSlotError (slotsOf i) = none := by
  unfold decode at h
  split at h
  · cases h
  · next hr =>
    split at h
    · cases h
    · next hn => cases h; exact ⟨hr, hn⟩

/-- The cells the decoder takes are those of the instruction it gives. -/
theorem cells_of_decode (h : decode cells = .ok (i, rest)) : cells = encode i ++ rest :=
  cells_of_readInstr (readInstr_of_decode h).1

end Sys2Proof

namespace Sys2Proof.Machine

variable {s t : State} {i : Instr}

/-- The first cell of the instruction a fetch decodes is the cell at the pc. -/
theorem opcode_of_decode {rest : List CodeUnit} (hp : s.pc.toNat < 32768)
    (h : decode (fetchCells s.mem 4 s.pc.toNat) = .ok (i, rest)) :
    (encode i).headD 0#16 = s.mem.lookup s.pc.toNat := by
  have hc := cells_of_decode h
  rw [fetchCells_succ _ _ hp] at hc
  cases i <;> exact (List.cons.inj hc).1.symm

/-! ### The whole case split of a step -/

theorem raiseDecodeError_raised (s : State) (e : DecodeError) : Raised s (s.raiseDecodeError e) := by
  cases e <;> exact ⟨_, _, rfl⟩

/-- Everything a step can do, in every status: the uncounted fault of a pc out of range, a counted effect, a host action, or
nothing. -/
theorem step_next (h : step s = .next t) :
    (s.status = .running ∧ 32768 ≤ s.pc.toNat ∧ t = s.raise .pcOutOfRange s.pc) ∨
    (s.status = .running ∧ s.pc.toNat < 32768 ∧ Effect s.count t) ∨
    (∃ d, s.status = .waitInput d ∧ t = s.serveWait d) ∨
    (s.status ≠ .running ∧ t = s) := by
  cases hs : s.status with
  | running =>
    rcases step_running hs h with ⟨hp, ht⟩ | ⟨hp, e, -, rfl⟩ | ⟨hp, i, -, -, he⟩
    · exact .inl ⟨rfl, hp, ht⟩
    · exact .inr (.inl ⟨rfl, hp, .ofRaised (raiseDecodeError_raised _ e)⟩)
    · exact .inr (.inl ⟨rfl, hp, exec_effect he⟩)
  | waitInput d =>
    rw [step_waiting hs] at h
    cases h
    exact .inr (.inr (.inl ⟨d, rfl, rfl⟩))
  | halted | faulted =>
    simp only [step, hs] at h
    cases h
    exact .inr (.inr (.inr ⟨by simp, rfl⟩))

/-! ### Host actions -/

/-- A poke writes one cell or is refused (R151). -/
theorem poke_cases (s : State) (addr value : CodeUnit) :
    s.poke addr value = s ∨ ∃ d, s.poke addr value = s.writeCell d value := by
  unfold State.poke
  split
  · exact .inr ⟨_, rfl⟩
  · exact .inl rfl

@[simp] theorem poke_cycles (s : State) (addr value : CodeUnit) : (s.poke addr value).cycles = s.cycles := by
  rcases poke_cases s addr value with h | ⟨d, h⟩ <;> simp [h]

@[simp] theorem poke_status (s : State) (addr value : CodeUnit) : (s.poke addr value).status = s.status := by
  rcases poke_cases s addr value with h | ⟨d, h⟩ <;> simp [h]

@[simp] theorem poke_hostQueue (s : State) (addr value : CodeUnit) : (s.poke addr value).hostQueue = s.hostQueue := by
  rcases poke_cases s addr value with h | ⟨d, h⟩ <;> simp [h]

/-- The wait counts no cycle (R19). -/
@[simp] theorem hostAct_cycles (s : State) (d : Addr) (act : HostAction) : (s.hostAct d act).cycles = s.cycles := by
  cases act <;> simp [State.hostAct]

@[simp] theorem hostAct_hostQueue (s : State) (d : Addr) (act : HostAction) :
    (s.hostAct d act).hostQueue = s.hostQueue := by
  cases act <;> simp [State.hostAct]

/-- Only a delivery and a host halt end the wait, and no other action moves the latch (R146). -/
theorem hostAct_status (s : State) (d : Addr) {act : HostAction} (hd : ∀ v, act ≠ .deliver v) (hh : act ≠ .halt) :
    (s.hostAct d act).status = s.status := by
  cases act with
  | deliver v => exact absurd rfl (hd v)
  | halt => exact absurd rfl hh
  | poke | restore | dump | save => simp [State.hostAct]

@[simp] theorem serveWait_cycles (s : State) (d : Addr) : (s.serveWait d).cycles = s.cycles := by
  cases hq : s.hostQueue with
  | nil => rw [serveWait_nil d hq]
  | cons act rest => rw [serveWait_cons d hq, hostAct_cycles]

/-! ### The invariant -/

theorem inv_iff : s.inv = true ↔ Memory.wf s.mem = true ∧ ∀ act ∈ s.hostQueue, act.wf = true := by
  simp [State.inv]

theorem Effect.inv (h : Effect s t) (hs : s.inv = true) : t.inv = true := by
  obtain ⟨hm, hq⟩ := inv_iff.mp hs
  rw [inv_iff]
  cases h with
  | stored d v | popped _ d v => exact ⟨Memory.wf_write d v hm, hq⟩
  | received q d v _ hd => exact ⟨Memory.wf_write d v hm, fun act ha => hq act (by rw [hd]; exact .tail _ ha)⟩
  | raised | moved | pushed | returned | stopped | emitted | waiting => exact ⟨hm, hq⟩

/-- A host action keeps the canonical form; a restore brings its own memory, which must have it. -/
theorem hostAct_wf {d : Addr} {act : HostAction} (hm : Memory.wf s.mem = true) (ha : act.wf = true) :
    Memory.wf (s.hostAct d act).mem = true := by
  cases act with
  | deliver v => exact Memory.wf_write d v hm
  | poke addr value =>
    simp only [State.hostAct]
    rcases poke_cases s addr value with h | ⟨e, h⟩ <;> rw [h]
    · exact hm
    · exact Memory.wf_write e value hm
  | restore snap => exact ha
  | halt | dump | save => exact hm

theorem serveWait_inv {d : Addr} (hs : s.inv = true) : (s.serveWait d).inv = true := by
  cases hq : s.hostQueue with
  | nil => rwa [serveWait_nil d hq]
  | cons act rest =>
    obtain ⟨hm, hw⟩ := inv_iff.mp hs
    rw [hq, List.forall_mem_cons] at hw
    rw [serveWait_cons d hq, inv_iff, hostAct_hostQueue]
    exact ⟨hostAct_wf hm hw.1, hw.2⟩

/-- Settles O20: every effect of an instruction and every host action keeps the invariant. -/
theorem stepKeepsInvariant : Obligations.StepKeepsInvariant := by
  intro s t hs h
  rcases step_next h with ⟨-, -, rfl⟩ | ⟨-, -, he⟩ | ⟨d, -, rfl⟩ | ⟨-, rfl⟩
  · exact hs
  · exact he.inv hs
  · exact serveWait_inv hs
  · exact hs

/-! ### The cycle counter -/

/-- Executing an instruction counts nothing; the fetch has counted (R70 point 3). -/
theorem Effect.cycles_eq (h : Effect s t) : t.cycles = s.cycles := by cases h <;> rfl

/-- Settles O14: by the cases of a step. -/
theorem cyclesCountFetches : Obligations.CyclesCountFetches := by
  intro s t h
  rcases step_next h with ⟨-, hp, rfl⟩ | ⟨hr, hp, he⟩ | ⟨d, hw, rfl⟩ | ⟨hr, rfl⟩
  · rw [if_neg (by omega), raise_cycles]
  · rw [if_pos ⟨hr, by omega⟩, he.cycles_eq, count_cycles]
  · rw [if_neg (by simp [hw]), serveWait_cycles]
  · rw [if_neg (fun hc => hr hc.1)]

/-! ### The stack -/

theorem Raised.stack_eq (h : Raised s t) : t.stack = s.stack := by
  obtain ⟨_, _, rfl⟩ := h; rfl

/-- A fault keeps the stack, so only the instruction's own effect `P` remains to be looked at. -/
theorem stack_eq_unless_raised {P : Prop} (h : P ∨ Raised s t) (own : P → t.stack = s.stack) : t.stack = s.stack :=
  h.elim own Raised.stack_eq

theorem requestInput_stack (s : State) (d : Addr) : (s.requestInput d).stack = s.stack := by
  rcases requestInput_cases s d with ⟨_, _, -, h⟩ | ⟨-, h⟩ <;> simp [h]

/-- An instruction whose opcode is none of `push`, `pop`, `call`, `ret` leaves the stack as it is. -/
theorem exec_stack_eq (h : exec i s = .next t) (hi : (encode i).headD 0#16 ∉ [2#16, 3#16, 17#16, 18#16]) :
    t.stack = s.stack := by
  cases i with
  | push | pop | call | ret => simp [encode] at hi
  | halt | noop => cases h; rfl
  | eq | gt | add | mult | and | or => exact stack_eq_unless_raised (execDSS_next h) fun ⟨_, ht⟩ => ht ▸ rfl
  | set => exact stack_eq_unless_raised (exec_set_next h) fun ⟨_, ht⟩ => ht ▸ rfl
  | not => exact stack_eq_unless_raised (exec_not_next h) fun ⟨_, ht⟩ => ht ▸ rfl
  | mod => exact stack_eq_unless_raised (exec_mod_next h) fun ⟨_, _, _, ht⟩ => ht ▸ rfl
  | rmem => exact stack_eq_unless_raised (exec_rmem_next h) fun ⟨_, _, _, ht⟩ => ht ▸ rfl
  | wmem => exact stack_eq_unless_raised (exec_wmem_next h) fun ⟨_, ht⟩ => ht ▸ rfl
  | jmp => exact stack_eq_unless_raised (exec_jmp_next h) fun ht => ht ▸ rfl
  | jt => exact stack_eq_unless_raised (exec_jt_next h) fun ht => by rw [ht]; split <;> rfl
  | jf => exact stack_eq_unless_raised (exec_jf_next h) fun ht => by rw [ht]; split <;> rfl
  | out => exact stack_eq_unless_raised (exec_out_next h) fun ⟨_, ht⟩ => ht ▸ rfl
  | inp => exact stack_eq_unless_raised (exec_inp_next h) fun ⟨d, _, ht⟩ => ht ▸ requestInput_stack s d

/-- Settles O17: a fault leaves the stack, and an executed instruction has its opcode in the cell at the pc. -/
theorem stackChangesOnlyByStackInstructions : Obligations.StackChangesOnlyByStackInstructions := by
  intro s t hr h hne
  rcases step_running hr h with ⟨-, rfl⟩ | ⟨-, e, -, rfl⟩ | ⟨hp, i, rest, hd, he⟩
  · exact absurd rfl hne
  · exact absurd (raiseDecodeError_raised s.count e).stack_eq hne
  · rw [← opcode_of_decode hp hd]
    by_contra hi
    exact hne ((exec_stack_eq he hi).trans (count_stack s))

/-! ### The pc -/

/-- In the range of fetched instructions the pc does not overflow (R15). -/
theorem pc_add_toNat {p : CodeUnit} {n : Nat} (h : p.toNat + n ≤ 32768) :
    (p + BitVec.ofNat 16 n).toNat = p.toNat + n := by
  rw [BitVec.toNat_add, BitVec.toNat_ofNat]; omega

/-- A state that runs or has halted was not reached by a fault. -/
theorem of_not_faulted {P : Prop} (ht : t.status = .running ∨ t.status = .halted) (h : P ∨ Raised s t) : P := by
  rcases h with h | ⟨_, _, rfl⟩
  · exact h
  · simp at ht

/-- An instruction that writes one cell and does not fault leaves the pc after its `n` cells. -/
theorem pc_toNat_of_wrote {a v : CodeUnit} {n : Nat} (hp : s.pc.toNat + n ≤ 32768) (h : Wrote s t a v n) :
    t.pc.toNat = s.pc.toNat + n := by
  obtain ⟨_, rfl⟩ := h
  exact pc_add_toNat hp

/-- An `in` that is not suspended moves the pc by its two cells. -/
theorem requestInput_pc {d : Addr} (hp : s.pc.toNat + 2 ≤ 32768)
    (ht : (s.requestInput d).status = .running ∨ (s.requestInput d).status = .halted) :
    (s.requestInput d).pc = s.pc + 2#16 := by
  rcases requestInput_cases s d with ⟨v, q, -, h⟩ | ⟨-, h⟩
  · rw [h, completeInput_pc, pcAfterInput, if_pos (by dsimp only; omega)]
  · simp [h] at ht

/-- Settles O18: by the instruction, whose fault and suspension the status excludes. -/
theorem pcAdvancesByCellCount : Obligations.PcAdvancesByCellCount := by
  intro i s t _ hp h ht
  cases i with
  | jmp | jt | jf | call | ret => trivial
  | halt | noop => cases h; exact pc_add_toNat hp
  | eq | gt | add | mult | and | or => exact pc_toNat_of_wrote hp (of_not_faulted ht (execDSS_next h))
  | set => exact pc_toNat_of_wrote hp (of_not_faulted ht (exec_set_next h))
  | not => exact pc_toNat_of_wrote hp (of_not_faulted ht (exec_not_next h))
  | wmem => exact pc_toNat_of_wrote hp (of_not_faulted ht (exec_wmem_next h))
  | mod =>
    obtain ⟨_, -, hw⟩ := of_not_faulted ht (exec_mod_next h)
    exact pc_toNat_of_wrote hp hw
  | rmem =>
    obtain ⟨_, -, hw⟩ := of_not_faulted ht (exec_rmem_next h)
    exact pc_toNat_of_wrote hp hw
  | push =>
    obtain rfl := of_not_faulted ht (exec_push_next h)
    exact pc_add_toNat hp
  | pop =>
    obtain ⟨st, _, -, hw⟩ := of_not_faulted ht (exec_pop_next h)
    exact pc_toNat_of_wrote (s := { s with stack := st }) hp hw
  | out =>
    obtain ⟨-, rfl⟩ := of_not_faulted ht (exec_out_next h)
    exact pc_add_toNat hp
  | inp =>
    obtain ⟨d, -, rfl⟩ := of_not_faulted ht (exec_inp_next h)
    exact (congrArg BitVec.toNat (requestInput_pc hp ht)).trans (pc_add_toNat hp)

/-! ### The past: cycles counted and output emitted before -/

/-- The state with `k` more cycles counted before and with `past` emitted before its own output. -/
def State.withPast (k : Nat) (past : List CodeUnit) (s : State) : State :=
  { s with cycles := k + s.cycles, output := past ++ s.output }

/-- The next state of a result changed by `f`. -/
def mapNext (f : State → State) : Result → Result
  | .next t => .next (f t)
  | .fault r => .fault r
  | .refused r => .refused r

section Past

variable (k : Nat) (past : List CodeUnit)

@[simp] theorem withPast_mem (s : State) : (s.withPast k past).mem = s.mem := rfl
@[simp] theorem withPast_pc (s : State) : (s.withPast k past).pc = s.pc := rfl
@[simp] theorem withPast_status (s : State) : (s.withPast k past).status = s.status := rfl
@[simp] theorem withPast_hostQueue (s : State) : (s.withPast k past).hostQueue = s.hostQueue := rfl

theorem withSource_withPast (u : CodeUnit) (s : State) {go go' : CodeUnit → Result}
    (h : ∀ v, go' v = mapNext (State.withPast k past) (go v)) :
    withSource u (s.withPast k past) go' = mapNext (State.withPast k past) (withSource u s go) := by
  by_cases hu : u.toNat ≤ 32775
  · rw [withSource_valid _ _ hu, withSource_valid _ _ hu]; exact h _
  · rw [withSource_invalid _ _ (Nat.not_le.mp hu), withSource_invalid _ _ (Nat.not_le.mp hu)]; rfl

theorem withAddress_withPast (u : CodeUnit) (s : State) {go go' : Addr → Result}
    (h : ∀ d, go' d = mapNext (State.withPast k past) (go d)) :
    withAddress u (s.withPast k past) go' = mapNext (State.withPast k past) (withAddress u s go) := by
  unfold withAddress
  split
  · exact h _
  · rfl

theorem popUnit?_withPast (s : State) :
    (s.withPast k past).popUnit? = s.popUnit?.map fun r => (r.1, r.2.withPast k past) := by
  rcases stack_cases s.stack with hs | ⟨st, v, hs⟩
  · rw [popUnit?_nil hs, popUnit?_nil (s := s.withPast k past) hs]; rfl
  · rw [popUnit?_concat hs, popUnit?_concat (s := s.withPast k past) hs]; rfl

theorem emit_withPast (s : State) (v : CodeUnit) : (s.withPast k past).emit v = (s.emit v).withPast k past := by
  simp [State.emit, State.withPast]

theorem requestInput_withPast (s : State) (d : Addr) :
    (s.withPast k past).requestInput d = (s.requestInput d).withPast k past := by
  unfold State.requestInput
  simp only [withPast_hostQueue]
  split <;> rfl

/-! #### The instructions -/

theorem execDSS_withPast (f : CodeUnit → CodeUnit → CodeUnit) (a b c : CodeUnit) (s : State) :
    execDSS f a b c (s.withPast k past) = mapNext (State.withPast k past) (execDSS f a b c s) :=
  withAddress_withPast k past a s fun _ => withSource_withPast k past b s fun _ =>
    withSource_withPast k past c s fun _ => rfl

/-- An instruction does the same whatever the past. -/
theorem exec_withPast (i : Instr) (s : State) :
    exec i (s.withPast k past) = mapNext (State.withPast k past) (exec i s) := by
  cases i with
  | halt | noop => rfl
  | eq | gt | add | mult | and | or => exact execDSS_withPast k past _ _ _ _ s
  | set | not => exact withAddress_withPast k past _ s fun _ => withSource_withPast k past _ s fun _ => rfl
  | mod =>
    refine withAddress_withPast k past _ s fun _ => withSource_withPast k past _ s fun _ =>
      withSource_withPast k past _ s fun _ => ?_
    split <;> rfl
  | rmem =>
    exact withAddress_withPast k past _ s fun _ => withSource_withPast k past _ s fun _ =>
      withAddress_withPast k past _ s fun _ => rfl
  | wmem =>
    exact withSource_withPast k past _ s fun _ => withSource_withPast k past _ s fun _ =>
      withAddress_withPast k past _ s fun _ => rfl
  | push | jmp | call => exact withSource_withPast k past _ s fun _ => rfl
  | jt | jf =>
    refine withSource_withPast k past _ s fun _ => withSource_withPast k past _ s fun _ => ?_
    split <;> rfl
  | pop =>
    refine withAddress_withPast k past _ s fun _ => ?_
    simp only [withPop, popUnit?_withPast]
    cases s.popUnit? <;> rfl
  | ret =>
    simp only [exec, execRet, popUnit?_withPast]
    cases s.popUnit? <;> rfl
  | out =>
    exact withSource_withPast k past _ s fun v =>
      congrArg (fun t : State => (Host.Outcome.next (t.advance 2) : Result)) (emit_withPast k past s v)
  | inp =>
    exact withAddress_withPast k past _ s fun d => congrArg Host.Outcome.next (requestInput_withPast k past s d)

/-! #### The step -/

theorem hostAct_withPast (s : State) (d : Addr) (act : HostAction) :
    (s.withPast k past).hostAct d act = (s.hostAct d act).withPast k past := by
  cases act with
  | poke addr value =>
    simp only [State.hostAct, State.poke]
    split <;> rfl
  | deliver | halt | restore | dump | save => rfl

theorem serveWait_withPast (s : State) (d : Addr) :
    (s.withPast k past).serveWait d = (s.serveWait d).withPast k past := by
  cases hq : s.hostQueue with
  | nil => rw [serveWait_nil d hq, serveWait_nil (s := s.withPast k past) d hq]
  | cons act rest =>
    rw [serveWait_cons d hq, serveWait_cons (s := s.withPast k past) d hq, ← hostAct_withPast]; rfl

theorem raiseDecodeError_withPast (s : State) (e : DecodeError) :
    (s.withPast k past).raiseDecodeError e = (s.raiseDecodeError e).withPast k past := by
  cases e <;> rfl

/-- A step does the same whatever the past. -/
theorem step_withPast (s : State) : step (s.withPast k past) = mapNext (State.withPast k past) (step s) := by
  simp only [step, withPast_status]
  cases s.status with
  | running =>
    rcases Nat.lt_or_ge s.pc.toNat 32768 with hp | hp
    · cases hd : decode (fetchCells s.mem 4 s.pc.toNat) with
      | error e =>
        rw [fetch_error hp hd, fetch_error (s := s.withPast k past) hp hd]
        exact congrArg Host.Outcome.next (raiseDecodeError_withPast k past s.count e)
      | ok r =>
        rw [fetch_ok hp hd, fetch_ok (s := s.withPast k past) hp hd]
        exact exec_withPast k past r.1 s.count
    · rw [fetch_past hp, fetch_past (s := s.withPast k past) hp]; rfl
  | waitInput d => exact congrArg Host.Outcome.next (serveWait_withPast k past s d)
  | halted | faulted => rfl

/-- The state that has counted and emitted nothing yet. -/
def State.withoutPast (s : State) : State := { s with cycles := 0, output := [] }

/-- A state without a past takes any counter and any output as its past. -/
theorem withoutPast_withPast (s : State) : s.withoutPast.withPast k past = { s with cycles := k, output := past } := by
  simp [State.withPast, State.withoutPast]

end Past

theorem mapNext_next {f : State → State} {r : Result} (h : mapNext f r = .next t) : ∃ u, r = .next u ∧ t = f u := by
  cases r with
  | next u => cases h; exact ⟨u, rfl, rfl⟩
  | fault | refused => cases h

/-- Settles O23: both runs are the run of the state without a past, with the two pasts put before it. -/
theorem cyclesAndOutputAreNeverRead : Obligations.CyclesAndOutputAreNeverRead := by
  intro s t n out h
  have hs : step s = mapNext (State.withPast s.cycles s.output) (step s.withoutPast) := by
    rw [← step_withPast, withoutPast_withPast]
  obtain ⟨u, hu, rfl⟩ := mapNext_next (hs.symm.trans h)
  refine ⟨u.withPast n out, u.cycles, u.output, ?_, rfl, rfl, rfl, rfl, rfl⟩
  rw [← withoutPast_withPast, step_withPast, hu]
  rfl

/-! ### Registers and cells -/

/-- `wmem` on valid slots with a valid effective address. -/
theorem exec_wmem_valid (s : State) {a b : CodeUnit} (ha : a.toNat ≤ 32775) (hb : b.toNat ≤ 32775)
    (he : (sourceValue s a).toNat < 32776) :
    exec (.wmem a b) s = .next ((s.writeCell ⟨_, he⟩ (sourceValue s b)).advance 3) := by
  rw [exec, execWmem, withSource_valid _ _ ha, withSource_valid _ _ hb, withAddress_valid _ _ he]

/-- `rmem` on valid slots with a valid effective address. -/
theorem exec_rmem_valid (s : State) {a b : CodeUnit} (ha : a.toNat < 32776) (hb : b.toNat ≤ 32775)
    (he : (sourceValue s b).toNat < 32776) :
    exec (.rmem a b) s = .next ((s.writeCell ⟨_, ha⟩ (s.read ⟨_, he⟩)).advance 3) := by
  rw [exec, execRmem, withAddress_valid _ _ ha, withSource_valid _ _ hb, withAddress_valid _ _ he]

/-- Settles O26: the effective address is the register's cell, which `wmem` writes and `rmem` reads. -/
theorem registersAreCells : Obligations.RegistersAreCells := by
  intro s r a b ha hb hr
  have he : (sourceValue s a).toNat < 32776 := by have := r.isLt; omega
  refine ⟨⟨_, exec_wmem_valid s ha hb he, ?_⟩, _, exec_rmem_valid s (by omega) ha he, fun d hd => ?_⟩
  · simp [hr]
  · simp [hr, hd]

/-! ### The wait -/

/-- An action that does not end the wait is served in one step, with status and cycle counter kept. -/
theorem step_keeps_waiting {d : Addr} {act : HostAction} {rest : List HostAction} (hw : s.status = .waitInput d)
    (hq : s.hostQueue = act :: rest) (hd : ∀ v, act ≠ .deliver v) (hh : act ≠ .halt) :
    ∃ t, step s = .next t ∧ t.status = .waitInput d ∧ t.hostQueue = rest ∧ t.cycles = s.cycles := by
  refine ⟨_, step_waiting hw, ?_, ?_, serveWait_cycles s d⟩
  · rw [serveWait_cons d hq, hostAct_status _ d hd hh]; exact hw
  · rw [serveWait_cons d hq, hostAct_hostQueue]

/-- Settles O54: by induction on the actions before the delivery. -/
theorem latchSurvivesHostActions : Obligations.LatchSurvivesHostActions := by
  intro s d acts
  induction acts generalizing s with
  | nil =>
    intro rest v hw hq _ _
    refine ⟨({ s with hostQueue := rest } : State).completeInput d v, ?_, rfl, ?_, rfl, rfl⟩
    · rw [List.length_nil, run_succ 0 (step_waiting hw), serveWait_cons d hq]; rfl
    · simp
  | cons act acts ih =>
    intro rest v hw hq hd hh
    obtain ⟨u, hu, huw, huq, huc⟩ := step_keeps_waiting hw hq
      (fun w he => hd w (he ▸ .head _)) (fun he => hh (he ▸ .head _))
    obtain ⟨t, ht, hts, htr, htc, htq⟩ := ih u rest v huw huq
      (fun w hm => hd w (.tail _ hm)) (fun hm => hh (.tail _ hm))
    exact ⟨t, (run_succ _ hu).trans ht, hts, htr, htc.trans huc, htq⟩

/-! ### Reset, and the finite stack -/

/-- Settles O22. -/
theorem resetEventValues : Obligations.ResetEventValues :=
  fun _ => ⟨⟨rfl, rfl, rfl, rfl, fun _ => rfl, rfl⟩, rfl⟩

/-- Settles O31: the stack is full exactly when its depth is the capacity. -/
theorem finiteStackOverflows : Obligations.FiniteStackOverflows := by
  intro capacity s v go
  refine ⟨fun h => if_pos ?_, fun h => if_neg ?_⟩
  · simpa [State.stackFull] using h.symm
  · simpa [State.stackFull] using (Nat.ne_of_lt h).symm

end Sys2Proof.Machine

/-! Proofs about memory (20_memory.md). What stands where the engine fetches comes first, then what an instruction leaves of
memory; the statements about stores are assembled from the two. -/

/-! ### The decoder on the cells of an instruction -/

namespace Sys2Proof

variable {i : Instr}

theorem cellCount_pos (i : Instr) : 0 < cellCount i := by cases i <;> exact Nat.succ_pos _

theorem cellCount_le_four (i : Instr) : cellCount i ≤ 4 := by cases i <;> simp [cellCount, encode]

/-- The opcode map reads an instruction back from its cells (R53). -/
theorem readInstr_encode_append (i : Instr) (rest : List CodeUnit) : readInstr (encode i ++ rest) = .ok (i, rest) := by
  cases i <;> rfl

/-- Instructions at the head of the same cells are the same. -/
theorem encode_prefix_unique {j : Instr} {cells : List CodeUnit} (hi : encode i <+: cells) (hj : encode j <+: cells) :
    i = j := by
  obtain ⟨r, rfl⟩ := hi
  obtain ⟨r', h⟩ := hj
  have hr := readInstr_encode_append j r'
  rw [h, readInstr_encode_append] at hr
  cases hr
  rfl

/-- A well-formed instruction has no slot to reject (R58, R74). -/
theorem firstSlotError_of_wellFormed (h : i.wellFormed = true) : firstSlotError (slotsOf i) = none := by
  cases i with
  | halt | ret | noop => rfl
  | _ => simpa [Instr.wellFormed, slotsOf, and_assoc] using h

/-- The decoder gives a well-formed instruction back from its cells, whatever cells follow. -/
theorem decode_encode_append (h : i.wellFormed = true) (rest : List CodeUnit) :
    decode (encode i ++ rest) = .ok (i, rest) := by
  simp only [decode, readInstr_encode_append, firstSlotError_of_wellFormed h]

/-- An opcode cell above 21 is rejected whatever cells follow (R57). -/
theorem decode_unknownOpcode {op : CodeUnit} (h : 21 < op.toNat) (rest : List CodeUnit) :
    decode (op :: rest) = .error (.unknownOpcode op) := by
  have hr : readInstr (op :: rest) = .error (.unknownOpcode op) := by
    simp only [readInstr]
    split
    case h_23 => rfl
    all_goals omega
  simp only [decode, hr]

end Sys2Proof

namespace Sys2Proof.Machine

variable {s t : State} {i : Instr}

/-! ### The instruction at the pc -/

/-- An instruction stands at the pc exactly when the cells that may be fetched begin with its own (R50, R71). -/
theorem atInstr_iff_prefix : AtInstr i s ↔ s.status = .running ∧ encode i <+: fetchCells s.mem 4 s.pc.toNat := by
  have h4 := cellCount_le_four i
  rw [List.prefix_iff_getElem?]
  refine and_congr_right fun _ => ⟨fun ⟨hp, hc⟩ k hk => ?_, fun hc => ?_⟩
  · have hk' : k < cellCount i := hk
    rw [fetchCells_getElem? _ _ _ _ (by omega) (by omega), hc k hk, List.getD_eq_getElem _ _ hk]
  · have h0 := cellCount_pos i
    have hlen := (List.prefix_iff_getElem?.mpr hc).length_le
    rw [fetchCells_length] at hlen
    have hp : s.pc.toNat + cellCount i ≤ 32768 := by unfold cellCount at h0 ⊢; omega
    refine ⟨hp, fun k hk => ?_⟩
    have hck := hc k hk
    rw [fetchCells_getElem? _ _ _ _ (by omega) (by omega)] at hck
    rw [List.getD_eq_getElem _ _ hk, Option.some.inj hck]

theorem AtInstr.pc_lt (h : AtInstr i s) : s.pc.toNat < 32768 := by
  have := cellCount_pos i
  obtain ⟨-, hp, -⟩ := h
  omega

/-- At most one instruction stands at the pc. -/
theorem AtInstr.unique {j : Instr} (hi : AtInstr i s) (hj : AtInstr j s) : i = j :=
  encode_prefix_unique (atInstr_iff_prefix.mp hi).2 (atInstr_iff_prefix.mp hj).2

/-- What a fetch of a running engine decodes stands at the pc. -/
theorem atInstr_of_decode {rest : List CodeUnit} (hr : s.status = .running)
    (h : decode (fetchCells s.mem 4 s.pc.toNat) = .ok (i, rest)) : AtInstr i s :=
  atInstr_iff_prefix.mpr ⟨hr, rest, (cells_of_decode h).symm⟩

/-- What a step of a running engine can do: a fault of the fetch, counted or not, or the instruction that stands at the pc. -/
theorem step_running_atInstr (hr : s.status = .running) (h : step s = .next t) :
    (∃ n, Raised { s with cycles := n } t) ∨ ∃ i, AtInstr i s ∧ exec i s.count = .next t := by
  rcases step_running hr h with ⟨-, rfl⟩ | ⟨-, e, -, rfl⟩ | ⟨-, i, rest, hd, he⟩
  · exact .inl ⟨s.cycles, _, _, rfl⟩
  · exact .inl ⟨s.cycles + 1, raiseDecodeError_raised s.count e⟩
  · exact .inr ⟨i, atInstr_of_decode hr hd, he⟩

/-- A well-formed instruction at the pc is executed, in the state with the cycle counted (R70). -/
theorem step_of_atInstr (hw : i.wellFormed = true) (h : AtInstr i s) : step s = exec i s.count := by
  obtain ⟨hr, rest, hf⟩ := atInstr_iff_prefix.mp h
  simp only [step, hr, fetch_ok h.pc_lt (hf ▸ decode_encode_append hw rest)]

/-- A step from an instruction that leaves the engine running is the execution of that instruction. -/
theorem exec_of_step_running (h : AtInstr i s) (hs : step s = .next t) (ht : t.status = .running) :
    exec i s.count = .next t := by
  rcases step_running_atInstr h.1 hs with ⟨_, _, _, rfl⟩ | ⟨j, hj, he⟩
  · simp at ht
  · rwa [h.unique hj]

/-- An unknown opcode at the pc is a counted fault with the opcode's value (R57). -/
theorem step_unknownOpcode (hr : s.status = .running) (hp : s.pc.toNat < 32768)
    (h : 21 < (s.mem.lookup s.pc.toNat).toNat) :
    step s = .next (s.count.raise .unknownOpcode (s.mem.lookup s.pc.toNat)) := by
  have hd := decode_unknownOpcode h (fetchCells s.mem 3 (s.pc.toNat + 1))
  rw [← fetchCells_succ _ _ hp] at hd
  simp only [step, hr, fetch_error hp hd, State.raiseDecodeError]

/-! ### What an instruction leaves of memory -/

theorem Raised.mem_eq (h : Raised s t) : t.mem = s.mem := by
  obtain ⟨_, _, rfl⟩ := h; rfl

/-- A fault keeps memory, so only the instruction's own effect `P` remains to be looked at. -/
theorem read_eq_unless_raised {P : Prop} {x : Addr} (h : P ∨ Raised s t) (own : P → t.read x = s.read x) :
    t.read x = s.read x :=
  h.elim own fun hr => congrArg (Memory.read · x) hr.mem_eq

/-- A fault, a suspension and a stop keep memory (R131, R172, R177). -/
theorem Effect.mem_eq (h : Effect s t) (hs : s.status = .running) (ht : t.status ≠ .running) : t.mem = s.mem := by
  cases h with
  | stored | popped => exact absurd hs ht
  | received => exact absurd rfl ht
  | raised | moved | pushed | returned | stopped | emitted | waiting => rfl

theorem addrOf?_val {u : CodeUnit} {d : Addr} (h : d.val = u.toNat) : addrOf? u = some d := by
  rw [addrOf?_valid (h ▸ d.isLt)]
  exact congrArg some (Fin.ext h.symm)

/-- Writing the cell `a` names keeps every other cell. -/
theorem Wrote.read_eq {a v : CodeUnit} {n : Nat} {x : Addr} (hx : addrOf? a ≠ some x) (h : Wrote s t a v n) :
    t.read x = s.read x := by
  obtain ⟨ha, rfl⟩ := h
  have hne : x.val ≠ a.toNat := fun he => hx (addrOf?_val he)
  simp [hne]

theorem requestInput_read {d x : Addr} (hx : x ≠ d) : (s.requestInput d).read x = s.read x := by
  rcases requestInput_cases s d with ⟨_, _, -, h⟩ | ⟨-, h⟩ <;> simp [h, Fin.val_ne_iff.mpr hx]

/-- An instruction changes no cell but the one it stores to (R43, R73, R121). -/
theorem exec_read_eq {x : Addr} (h : exec i s = .next t) (hx : storedAddr? s i ≠ some x) : t.read x = s.read x := by
  cases i with
  | halt | noop => cases h; rfl
  | push => exact read_eq_unless_raised (exec_push_next h) fun ht => ht ▸ rfl
  | jmp => exact read_eq_unless_raised (exec_jmp_next h) fun ht => ht ▸ rfl
  | jt => exact read_eq_unless_raised (exec_jt_next h) fun ht => by rw [ht]; split <;> rfl
  | jf => exact read_eq_unless_raised (exec_jf_next h) fun ht => by rw [ht]; split <;> rfl
  | call => exact read_eq_unless_raised (exec_call_next h) fun ht => ht ▸ rfl
  | out => exact read_eq_unless_raised (exec_out_next h) fun ⟨_, ht⟩ => ht ▸ rfl
  | ret => rcases exec_ret_next h with ⟨-, rfl⟩ | ⟨_, _, -, rfl⟩ <;> rfl
  | eq | gt | add | mult | and | or => exact read_eq_unless_raised (execDSS_next h) (Wrote.read_eq hx)
  | set => exact read_eq_unless_raised (exec_set_next h) (Wrote.read_eq hx)
  | not => exact read_eq_unless_raised (exec_not_next h) (Wrote.read_eq hx)
  | wmem => exact read_eq_unless_raised (exec_wmem_next h) (Wrote.read_eq hx)
  | mod => exact read_eq_unless_raised (exec_mod_next h) fun ⟨_, _, hw⟩ => Wrote.read_eq hx hw
  | rmem => exact read_eq_unless_raised (exec_rmem_next h) fun ⟨_, _, hw⟩ => Wrote.read_eq hx hw
  | pop =>
    exact read_eq_unless_raised (exec_pop_next h) fun ⟨st, _, _, hw⟩ => Wrote.read_eq (s := { s with stack := st }) hx hw
  | inp a =>
    refine read_eq_unless_raised (exec_inp_next h) fun ⟨d, hd, ht⟩ => ht ▸ requestInput_read fun he => hx ?_
    exact he ▸ addrOf?_val hd

/-- Settles O15: by the instruction at the pc, if there is one; a fault of the fetch keeps memory. -/
theorem atMostOneCellChanges : Obligations.AtMostOneCellChanges := by
  intro s t hr h
  rcases step_running_atInstr hr h with ⟨_, hf⟩ | ⟨i, hi, he⟩
  · exact ⟨fun _ _ x _ => congrArg (Memory.read · x) hf.mem_eq, fun _ => hf.mem_eq, fun _ => hf.mem_eq⟩
  · refine ⟨fun j hj x hx => ?_, (exec_effect he).mem_eq hr, fun hn => absurd hi (hn i)⟩
    rw [hj.unique hi] at hx
    exact exec_read_eq (s := s.count) he hx

/-! ### A store into the cell after the instruction -/

/-- An instruction that stores and leaves the engine running leaves the pc after its own cells (R15). -/
theorem pc_after_store {d : Addr} (hi : AtInstr i s) (he : exec i s.count = .next t) (ht : t.status = .running)
    (hd : storedAddr? s i = some d) : t.pc.toNat = s.pc.toNat + cellCount i := by
  obtain ⟨hr, hp, -⟩ := hi
  have h := pcAdvancesByCellCount i s.count t hr hp he (.inl ht)
  cases i with
  | jmp | jt | jf | call | ret => cases hd
  | _ => exact h

/-- An instruction whose opcode is the value stored at `d` and whose slots stood after `d` before stands at `d` after the store,
since the store leaves its slots alone. -/
theorem atInstr_after_store {d : Addr} {j : Instr} (hi : AtInstr i s) (hs : step s = .next t) (ht : t.status = .running)
    (hd : storedAddr? s i = some d) (hpc : t.pc.toNat = d.val) (hop : (encode j).headD 0#16 = t.read d)
    (hj : d.val + cellCount j ≤ 32768)
    (hslots : ∀ k, 1 ≤ k → k < cellCount j → s.mem.lookup (d.val + k) = (encode j).getD k 0#16) : AtInstr j t := by
  refine ⟨ht, hpc ▸ hj, fun k hk => ?_⟩
  rw [hpc]
  rcases Nat.eq_zero_or_pos k with rfl | hk0
  · rw [← List.headD_eq_getD, hop]; rfl
  · have hlt : d.val + k < 32776 := by omega
    have hne : storedAddr? s i ≠ some ⟨d.val + k, hlt⟩ := by
      rw [hd, Ne, Option.some.injEq, Fin.ext_iff]
      dsimp only
      omega
    exact ((atMostOneCellChanges s t hi.1 hs).1 i hi _ hne).trans (hslots k hk0 hk)

/-- `set` on valid slots always completes. -/
theorem exec_set_valid (s : State) {a b : CodeUnit} (ha : a.toNat < 32776) (hb : b.toNat ≤ 32775) :
    exec (.set a b) s = .next ((s.writeCell ⟨_, ha⟩ (sourceValue s b)).advance 3) := by
  rw [exec, execSet, withAddress_valid _ _ ha, withSource_valid _ _ hb]

/-- A step that completes with a store by a three-cell instruction, with its frame. -/
theorem storedAt_of_step {d : Addr} {p : Nat} {v : CodeUnit} (hd : d.val = p)
    (h : step s = .next ((s.count.writeCell d v).advance 3)) :
    ∃ t, step s = .next t ∧ StoredAt s t p v ∧ t = { s with mem := t.mem, pc := s.pc + 3#16, cycles := s.cycles + 1 } :=
  ⟨_, h, fun x => by simp [hd], rfl⟩

/-- Settles O44: the pc after a store is the cell after the instruction, so the next fetch takes its opcode from there. -/
theorem storeIsSeenByNextFetch : Obligations.StoreIsSeenByNextFetch := by
  refine ⟨fun i s t d hi hs ht hd hdv hd' => ?_, fun s a b hi ha hb hv hp => ?_, fun s a b hi hb hv hp => ?_⟩
  · have hpc : t.pc.toNat = d.val := hdv ▸ pc_after_store hi (exec_of_step_running hi hs ht) ht hd
    refine ⟨hpc, fun j hw hop hj hslots => ?_, fun hop => ?_⟩
    · exact step_of_atInstr hw (atInstr_after_store hi hs ht hd hpc hop hj hslots)
    · have hread : t.read d = t.mem.lookup t.pc.toNat := by rw [hpc]; rfl
      rw [hread] at hop ⊢
      exact step_unknownOpcode ht (by omega) hop
  · have hw : (Instr.wmem a b).wellFormed = true := by simp [Instr.wellFormed, ha, hb]
    exact storedAt_of_step hv ((step_of_atInstr hw hi).trans
      (exec_wmem_valid s.count ha hb (show (sourceValue s a).toNat < 32776 by omega)))
  · have hw : (Instr.set a b).wellFormed = true := by simp [Instr.wellFormed, hb]; omega
    exact storedAt_of_step hv ((step_of_atInstr hw hi).trans (exec_set_valid s.count (by omega) hb))

/-! ### The memory dump -/

/-- Settles O57: the dump is the bytes of the 32776 cells in address order, low byte first. -/
theorem dumpIsLittleEndian : Obligations.DumpIsLittleEndian := by
  intro m
  refine ⟨by rw [Memory.dumpBytes, bytesOfUnits_length, Memory.cells_length], fun x => ?_⟩
  rw [Memory.dumpBytes, bytesOfUnits_getD _ (by simp), List.getD_eq_getElem?_getD, Memory.cells_getElem?]
  rfl

end Sys2Proof.Machine

/-! Proofs about the encoding (30_encoding.md). What the decoder and the meanings do with an invalid slot is said once for all
instructions; the statements are assembled from that and from the decoder's lemmas above. -/

/-! ### Decoder and encoder -/

namespace Sys2Proof

variable {i : Instr}

/-- An instruction none of whose slots is rejected is well formed (R58, R74). -/
theorem wellFormed_of_firstSlotError (h : firstSlotError (slotsOf i) = none) : i.wellFormed = true := by
  cases i with
  | halt | ret | noop => rfl
  | _ => simpa [Instr.wellFormed, slotsOf, and_assoc] using h

/-- Settles O1: the opcode map reads the instruction back from its cells, and no slot is rejected. -/
theorem decodeOfEncode : Obligations.DecodeOfEncode :=
  fun _ rest hw => decode_encode_append hw rest

/-- Settles O2: what the decoder accepts has no rejected slot, and its cells are those the opcode map took. -/
theorem encodeOfDecode : Obligations.EncodeOfDecode := by
  intro i cells rest h
  obtain ⟨-, hslots⟩ := readInstr_of_decode h
  exact ⟨wellFormed_of_firstSlotError hslots, cells_of_decode h⟩

/-- Settles O3: the decoder evaluated on each word. -/
theorem sampleWordsDecode : Obligations.SampleWordsDecode := ⟨rfl, rfl, rfl, rfl, rfl, rfl⟩

/-! ### The first invalid slot -/

/-- The cells of an instruction with an invalid slot are rejected for that slot, whatever cells follow (R74). -/
theorem decode_encode_append_error {e : DecodeError} (h : firstSlotError (slotsOf i) = some e) (rest : List CodeUnit) :
    decode (encode i ++ rest) = .error e := by
  simp only [decode, readInstr_encode_append, h]

/-- Valid slots are passed over in the search for the first invalid one. -/
theorem firstSlotError_append_of_valid {before : List (SlotKind × CodeUnit)} (h : ∀ p ∈ before, p.2.toNat ≤ 32775)
    (slots : List (SlotKind × CodeUnit)) : firstSlotError (before ++ slots) = firstSlotError slots := by
  induction before with
  | nil => rfl
  | cons slot before ih =>
    obtain ⟨hslot, hbefore⟩ := List.forall_mem_cons.mp h
    rw [List.cons_append, firstSlotError_cons, (slotError_eq_none_iff slot).mpr hslot, Option.none_or, ih hbefore]

/-- A slot that is rejected behind valid ones is the first one rejected. -/
theorem firstSlotError_of_split {before after : List (SlotKind × CodeUnit)} {slot : SlotKind × CodeUnit} {e : DecodeError}
    (h : ∀ p ∈ before, p.2.toNat ≤ 32775) (he : slotError slot = some e) :
    firstSlotError (before ++ slot :: after) = some e := by
  rw [firstSlotError_append_of_valid h, firstSlotError_cons, he, Option.some_or]

end Sys2Proof

namespace Sys2Proof.Machine

variable {s : State} {i : Instr}

/-! ### The meaning of an instruction with an invalid slot -/

/-- The result `r` of an execution in `s` is the fault of the first invalid slot, if one of `slots` is invalid. -/
def StopsAtInvalid (slots : List (SlotKind × CodeUnit)) (s : State) (r : Result) : Prop :=
  ∀ e, firstSlotError slots = some e → r = .next (s.raiseDecodeError e)

theorem stopsAtInvalid_nil {r : Result} : StopsAtInvalid [] s r := nofun

/-- A source slot checked first and the other slots in what follows it. -/
theorem stopsAtInvalid_withSource {u : CodeUnit} {slots : List (SlotKind × CodeUnit)} {go : CodeUnit → Result}
    (h : ∀ v, StopsAtInvalid slots s (go v)) : StopsAtInvalid ((.source, u) :: slots) s (withSource u s go) := by
  intro e he
  rw [firstSlotError_cons] at he
  rcases Nat.lt_or_ge 32775 u.toNat with hu | hu
  · rw [slotError_source hu] at he
    cases he
    exact withSource_invalid s go hu
  · rw [slotError_valid hu] at he
    rw [withSource_valid s go hu]
    exact h _ e he

/-- A destination slot checked first and the other slots in what follows it. -/
theorem stopsAtInvalid_withAddress {u : CodeUnit} {slots : List (SlotKind × CodeUnit)} {go : Addr → Result}
    (h : ∀ d, StopsAtInvalid slots s (go d)) : StopsAtInvalid ((.dest, u) :: slots) s (withAddress u s go) := by
  intro e he
  rw [firstSlotError_cons] at he
  rcases Nat.lt_or_ge 32775 u.toNat with hu | hu
  · rw [slotError_dest hu] at he
    cases he
    exact withAddress_invalid s go hu
  · rw [slotError_valid hu] at he
    rw [withAddress_valid s go (Nat.lt_succ_of_le hu)]
    exact h _ e he

/-- Every meaning checks its slots in the order of `slotsOf`, before anything else, by the formats of R52. -/
theorem exec_stopsAtInvalid (i : Instr) (s : State) : StopsAtInvalid (slotsOf i) s (exec i s) := by
  cases i with
  | halt | ret | noop => exact stopsAtInvalid_nil
  | push | jmp | call | out => exact stopsAtInvalid_withSource fun _ => stopsAtInvalid_nil
  | pop | inp => exact stopsAtInvalid_withAddress fun _ => stopsAtInvalid_nil
  | jt | jf | wmem =>
    exact stopsAtInvalid_withSource fun _ => stopsAtInvalid_withSource fun _ => stopsAtInvalid_nil
  | set | not | rmem =>
    exact stopsAtInvalid_withAddress fun _ => stopsAtInvalid_withSource fun _ => stopsAtInvalid_nil
  | eq | gt | add | mult | mod | and | or =>
    exact stopsAtInvalid_withAddress fun _ => stopsAtInvalid_withSource fun _ => stopsAtInvalid_withSource fun _ =>
      stopsAtInvalid_nil

/-- Settles O6: decoder and meaning both check the slots in the order of `slotsOf`. -/
theorem invalidSlotStopsInstruction : Obligations.InvalidSlotStopsInstruction :=
  fun i s rest e he => ⟨decode_encode_append_error he rest, exec_stopsAtInvalid i s e he⟩

/-! ### The step on cells the decoder rejects -/

/-- The step on an instruction with an invalid slot is the counted fault of its first invalid slot (R70 point 7, R74). -/
theorem step_of_atInstr_error {e : DecodeError} (h : AtInstr i s) (he : firstSlotError (slotsOf i) = some e) :
    step s = .next (s.count.raiseDecodeError e) := by
  obtain ⟨hr, rest, hf⟩ := atInstr_iff_prefix.mp h
  simp only [step, hr, fetch_error h.pc_lt (hf ▸ decode_encode_append_error he rest)]

/-- Settles O8: the second clause is the first, with the fault of the first invalid slot named by the slot's kind. -/
theorem stepFaultsOnInvalidSlot : Obligations.StepFaultsOnInvalidSlot := by
  intro i s hi
  refine ⟨fun e he => step_of_atInstr_error hi he, fun before kind u after hslots hbefore hu => ?_⟩
  cases kind with
  | dest => exact step_of_atInstr_error hi (hslots ▸ firstSlotError_of_split hbefore (slotError_dest hu))
  | source => exact step_of_atInstr_error hi (hslots ▸ firstSlotError_of_split hbefore (slotError_source hu))

/-- Settles O4: the fault leaves the pc of the counted state, which is the pc before. -/
theorem unknownOpcodeFaults : Obligations.UnknownOpcodeFaults :=
  fun _ hr hp hop => ⟨_, step_unknownOpcode hr (Nat.lt_succ_of_le hp) hop, rfl, rfl⟩

end Sys2Proof.Machine

/-! Proofs about the step and the operands (40_step_and_resolve.md). What the decoder rejects comes first, then that every meaning
answers a next state and what a step takes from the host queue; the statements are assembled from these. -/

/-! ### What the decoder rejects -/

namespace Sys2Proof

variable {cells rest : List CodeUnit} {i : Instr}

/-- A rejected slot is an invalid one, and the rejection names its kind and value (R55, R74). -/
theorem slotError_eq_some_iff {kind : SlotKind} {u : CodeUnit} {e : DecodeError} :
    slotError (kind, u) = some e ↔ 32775 < u.toNat ∧ e = match kind with
      | .dest => .addressOutOfRange u
      | .source => .invalidOperand u := by
  rcases Nat.lt_or_ge 32775 u.toNat with hu | hu
  · cases kind with
    | dest => simp [slotError_dest hu, hu, eq_comm]
    | source => simp [slotError_source hu, hu, eq_comm]
  · simp [slotError_valid hu, Nat.not_lt.mpr hu]

/-- A rejection is that of a slot behind valid ones. -/
theorem split_of_firstSlotError {slots : List (SlotKind × CodeUnit)} {e : DecodeError} (h : firstSlotError slots = some e) :
    ∃ before slot after, slots = before ++ slot :: after ∧ (∀ p ∈ before, p.2.toNat ≤ 32775) ∧ slotError slot = some e := by
  induction slots with
  | nil => cases h
  | cons slot slots ih =>
    rw [firstSlotError_cons] at h
    cases hs : slotError slot with
    | some e' =>
      rw [hs] at h
      exact ⟨[], slot, slots, rfl, nofun, hs.trans h⟩
    | none =>
      rw [hs] at h
      obtain ⟨before, slot', after, rfl, hbefore, he⟩ := ih h
      exact ⟨slot :: before, slot', after, rfl, List.forall_mem_cons.mpr ⟨(slotError_eq_none_iff slot).mp hs, hbefore⟩, he⟩

/-- Settles O5: the rejected slot is the one behind the valid ones. -/
theorem firstInvalidSlotIsReported : Obligations.FirstInvalidSlotIsReported := by
  intro slots e
  constructor
  · intro h
    obtain ⟨before, ⟨kind, u⟩, after, hslots, hbefore, he⟩ := split_of_firstSlotError h
    exact ⟨before, kind, u, after, hslots, hbefore, slotError_eq_some_iff.mp he⟩
  · rintro ⟨before, kind, u, after, rfl, hbefore, he⟩
    exact firstSlotError_of_split hbefore (slotError_eq_some_iff.mpr he)

theorem readSlots1_truncated (f : CodeUnit → Instr) (h : cells.length < 1) : readSlots1 f cells = .error .truncated := by
  cases cells with
  | nil => rfl
  | cons => simp at h

theorem readSlots2_truncated (f : CodeUnit → CodeUnit → Instr) (h : cells.length < 2) :
    readSlots2 f cells = .error .truncated := by
  match cells, h with
  | [], _ | [_], _ => rfl

theorem readSlots3_truncated (f : CodeUnit → CodeUnit → CodeUnit → Instr) (h : cells.length < 3) :
    readSlots3 f cells = .error .truncated := by
  match cells, h with
  | [], _ | [_], _ | [_, _], _ => rfl

/-- The opcode alone gives the number of cells; where fewer stand, the list is truncated whatever they hold (R51, R71). -/
theorem readInstr_truncated (h : rest.length + 1 < cellCount i) :
    readInstr ((encode i).headD 0#16 :: rest) = .error .truncated := by
  have hlen := Nat.lt_sub_of_add_lt h
  cases i with
  | halt | ret | noop => cases hlen
  | push | pop | jmp | call | out | inp => exact readSlots1_truncated _ hlen
  | set | jt | jf | not | rmem | wmem => exact readSlots2_truncated _ hlen
  | eq | gt | add | mult | mod | and | or => exact readSlots3_truncated _ hlen

end Sys2Proof

namespace Sys2Proof.Machine

variable {s t : State} {i : Instr}

/-! ### The step of a running engine -/

/-- Settles O7. -/
theorem stepRunsDecodedInstruction : Obligations.StepRunsDecodedInstruction := fun _ _ => step_of_atInstr

/-- Settles O9: the fault of the fetch, in the state not yet counted. -/
theorem pcPastLimitFaultsUncounted : Obligations.PcPastLimitFaultsUncounted := by
  intro s hr hp
  simp only [step, hr, fetch_past hp]
  rfl

/-- An instruction whose own cells do not all lie below the fetch limit is a counted fault with the pc (R71). -/
theorem step_truncated (hr : s.status = .running) (hp : s.pc.toNat < 32768) (hn : 32768 < s.pc.toNat + cellCount i)
    (hop : s.mem.lookup s.pc.toNat = (encode i).headD 0#16) : step s = .next (s.count.raise .pcOutOfRange s.pc) := by
  have hlen : (fetchCells s.mem 3 (s.pc.toNat + 1)).length + 1 < cellCount i := by rw [fetchCells_length]; omega
  have hd : decode (fetchCells s.mem 4 s.pc.toNat) = .error .truncated := by
    simp only [fetchCells_succ _ _ hp, hop, decode, readInstr_truncated hlen]
  simp only [step, hr, fetch_error hp hd, State.raiseDecodeError, count_pc]

/-- Settles O10: the decoder finds the list of fetched cells too short, after the cycle is counted. -/
theorem slotsPastLimitFaultCounted : Obligations.SlotsPastLimitFaultCounted :=
  fun _ _ hr hp => step_truncated hr (Nat.lt_succ_of_le hp)

/-! ### The step of a stopped or waiting engine -/

theorem step_halted (h : s.status = .halted) : step s = .next s := by simp only [step, h]

theorem step_faulted {c : Cause} {v : CodeUnit} (h : s.status = .faulted c v) : step s = .next s := by simp only [step, h]

/-- With nothing to come a waiting engine stays as it is (decision D14). -/
theorem step_waiting_nil {d : Addr} (hw : s.status = .waitInput d) (hq : s.hostQueue = []) : step s = .next s := by
  rw [step_waiting hw, serveWait_nil d hq]

/-- A delivery to a waiting engine completes its `in` (R131). -/
theorem step_waiting_deliver {d : Addr} {v : CodeUnit} {rest : List HostAction} (hw : s.status = .waitInput d)
    (hq : s.hostQueue = .deliver v :: rest) : step s = .next ({ s with hostQueue := rest }.completeInput d v) := by
  rw [step_waiting hw, serveWait_cons d hq, State.hostAct]

@[simp] theorem poke_output (s : State) (addr value : CodeUnit) : (s.poke addr value).output = s.output := by
  rcases poke_cases s addr value with h | ⟨d, h⟩ <;> simp [h]

/-- The wait emits nothing (R142). -/
@[simp] theorem hostAct_output (s : State) (d : Addr) (act : HostAction) : (s.hostAct d act).output = s.output := by
  cases act <;> simp [State.hostAct]

@[simp] theorem serveWait_output (s : State) (d : Addr) : (s.serveWait d).output = s.output := by
  cases hq : s.hostQueue with
  | nil => rw [serveWait_nil d hq]
  | cons act rest => rw [serveWait_cons d hq, hostAct_output]

/-- Of the host's actions only a delivery makes a waiting engine go on (R146). -/
theorem hostAct_running_iff {d : Addr} {act : HostAction} (hw : s.status = .waitInput d) :
    (s.hostAct d act).status = .running ↔ ∃ v, act = .deliver v := by
  cases act with
  | deliver | halt => simp [State.hostAct]
  | poke | restore | dump | save => simp [State.hostAct, hw]

theorem serveWait_running_iff {d : Addr} (hw : s.status = .waitInput d) :
    (s.serveWait d).status = .running ↔ ∃ v rest, s.hostQueue = .deliver v :: rest := by
  cases hq : s.hostQueue with
  | nil => simp [serveWait_nil d hq, hw]
  | cons act rest =>
    have ha := hostAct_running_iff (s := { s with hostQueue := rest }) (act := act) hw
    simpa [serveWait_cons d hq] using ha

/-- Settles O11: each status, and each state of the queue of a waiting engine, by its own equation of the step. -/
theorem stoppedOrWaitingTakesNoStep : Obligations.StoppedOrWaitingTakesNoStep := by
  refine ⟨fun _ => step_halted, fun _ _ _ => step_faulted, fun s t d hw h => ?_, fun _ _ => step_waiting_nil,
    fun _ _ _ _ => step_waiting_deliver⟩
  rw [step_waiting hw] at h
  cases h
  exact ⟨serveWait_cycles s d, serveWait_output s d, serveWait_running_iff hw⟩

/-! ### Every step answers a next state -/

/-- The result is a next state, and neither a fault nor a refusal of the model. -/
abbrev Answers (r : Result) : Prop := ∃ t, r = .next t

theorem withSource_answers {u : CodeUnit} {go : CodeUnit → Result} (h : ∀ v, Answers (go v)) :
    Answers (withSource u s go) := by
  unfold withSource
  split
  · exact h _
  · exact ⟨_, rfl⟩

theorem withAddress_answers {u : CodeUnit} {go : Addr → Result} (h : ∀ d, Answers (go d)) :
    Answers (withAddress u s go) := by
  unfold withAddress
  split
  · exact h _
  · exact ⟨_, rfl⟩

theorem withPop_answers {go : CodeUnit → State → Result} (h : ∀ v u, Answers (go v u)) : Answers (withPop s go) := by
  unfold withPop
  split
  · exact h _ _
  · exact ⟨_, rfl⟩

/-- Every meaning answers a next state: each slot check does, and so does what comes after the checks. -/
theorem exec_answers (i : Instr) (s : State) : Answers (exec i s) := by
  cases i with
  | halt | noop => exact ⟨_, rfl⟩
  | push | jmp | call | out => exact withSource_answers fun _ => ⟨_, rfl⟩
  | inp => exact withAddress_answers fun _ => ⟨_, rfl⟩
  | pop => exact withAddress_answers fun _ => withPop_answers fun _ _ => ⟨_, rfl⟩
  | set | not => exact withAddress_answers fun _ => withSource_answers fun _ => ⟨_, rfl⟩
  | rmem => exact withAddress_answers fun _ => withSource_answers fun _ => withAddress_answers fun _ => ⟨_, rfl⟩
  | wmem => exact withSource_answers fun _ => withSource_answers fun _ => withAddress_answers fun _ => ⟨_, rfl⟩
  | jt | jf =>
    refine withSource_answers fun _ => withSource_answers fun _ => ?_
    split <;> exact ⟨_, rfl⟩
  | eq | gt | add | mult | and | or =>
    exact withAddress_answers fun _ => withSource_answers fun _ => withSource_answers fun _ => ⟨_, rfl⟩
  | mod =>
    refine withAddress_answers fun _ => withSource_answers fun _ => withSource_answers fun _ => ?_
    split <;> exact ⟨_, rfl⟩
  | ret =>
    show Answers (execRet s)
    unfold execRet
    split <;> exact ⟨_, rfl⟩

theorem step_answers (s : State) : Answers (step s) := by
  cases hs : s.status with
  | running =>
    simp only [step, hs]
    cases fetch s with
    | stopped u => exact ⟨u, rfl⟩
    | run i u => exact exec_answers i u
  | waitInput d => exact ⟨_, step_waiting hs⟩
  | halted => exact ⟨s, step_halted hs⟩
  | faulted => exact ⟨s, step_faulted hs⟩

/-! ### What a step takes from the host queue -/

/-- The queue of `s` is that of `t` behind at most one action, which has been served on the way. -/
abbrev ServesAtMostOne (s t : State) : Prop := ∃ served, s.hostQueue = served ++ t.hostQueue ∧ served.length ≤ 1

theorem servesAtMostOne_of_eq (h : t.hostQueue = s.hostQueue) : ServesAtMostOne s t := ⟨[], h.symm, Nat.zero_le 1⟩

theorem Effect.servesAtMostOne (h : Effect s t) : ServesAtMostOne s t := by
  cases h with
  | received q d v p hq => exact ⟨[.deliver v], hq, Nat.le_refl 1⟩
  | raised | stored | moved | pushed | popped | returned | stopped | emitted | waiting => exact servesAtMostOne_of_eq rfl

theorem serveWait_servesAtMostOne (s : State) (d : Addr) : ServesAtMostOne s (s.serveWait d) := by
  cases hq : s.hostQueue with
  | nil => exact ⟨[], by rw [serveWait_nil d hq, hq]; rfl, Nat.zero_le 1⟩
  | cons act rest => exact ⟨[act], by rw [serveWait_cons d hq, hostAct_hostQueue, hq]; rfl, Nat.le_refl 1⟩

/-- A step takes at most one action, from the head of the queue, and adds none. -/
theorem step_servesAtMostOne (h : step s = .next t) : ServesAtMostOne s t := by
  rcases step_next h with ⟨-, -, rfl⟩ | ⟨-, -, he⟩ | ⟨d, -, rfl⟩ | ⟨-, rfl⟩
  · exact servesAtMostOne_of_eq rfl
  · exact he.servesAtMostOne (s := s.count)
  · exact serveWait_servesAtMostOne s d
  · exact servesAtMostOne_of_eq rfl

/-! ### Fed runs -/

/-- After `n` steps the queue of `t` holds what was queued in `s` and what has arrived since, without the at most `n` actions
served first. -/
def ServedInOrder (arrivals : Nat → List HostAction) (s : State) (n : Nat) (t : State) : Prop :=
  ∃ served, s.hostQueue ++ (List.range n).flatMap arrivals = served ++ t.hostQueue ∧ served.length ≤ n

theorem servedInOrder_zero (arrivals : Nat → List HostAction) (s : State) : ServedInOrder arrivals s 0 s :=
  ⟨[], by simp, Nat.le_refl 0⟩

theorem servedInOrder_succ {arrivals : Nat → List HostAction} {n : Nat} {u : State} (h : ServedInOrder arrivals s n t)
    (hu : ServesAtMostOne (t.arrive (arrivals n)) u) : ServedInOrder arrivals s (n + 1) u := by
  obtain ⟨served, hs, hn⟩ := h
  obtain ⟨now, hnow, h1⟩ := hu
  refine ⟨served ++ now, ?_, by rw [List.length_append]; omega⟩
  calc s.hostQueue ++ (List.range (n + 1)).flatMap arrivals
      = (s.hostQueue ++ (List.range n).flatMap arrivals) ++ arrivals n := by simp [List.range_succ]
    _ = served ++ (t.arrive (arrivals n)).hostQueue := by rw [hs, List.append_assoc, arrive_hostQueue]
    _ = (served ++ now) ++ u.hostQueue := by rw [hnow, List.append_assoc]

/-- A run under any input answers a next state, with the input served in order (R145). -/
theorem fedRun_servedInOrder (arrivals : Nat → List HostAction) (n : Nat) (s : State) :
    ∃ t, s.fedRun arrivals n = .next t ∧ ServedInOrder arrivals s n t := by
  refine fedRun_induction (servedInOrder_zero arrivals s) (fun n t ht => ?_) n
  obtain ⟨u, hu⟩ := step_answers (t.arrive (arrivals n))
  exact ⟨u, hu, servedInOrder_succ ht (step_servesAtMostOne hu)⟩

/-- An engine that waits with an empty queue takes the answer that arrives at its next step. -/
theorem fedRun_takes_answer {answers : Nat → Option CodeUnit} {n : Nat} {d : Addr} {v : CodeUnit}
    (h : s.fedRun (answersOnly answers) n = .next t) (hw : t.status = .waitInput d) (hq : t.hostQueue = [])
    (hv : answers n = some v) :
    s.fedRun (answersOnly answers) (n + 1) = .next (({ t with hostQueue := [] } : State).completeInput d v) := by
  have ha : t.arrive (answersOnly answers n) = { t with hostQueue := [.deliver v] } := by
    simp [State.arrive, answersOnly, hq, hv]
  exact (fedRun_succ h).trans (ha ▸ step_waiting_deliver (s := { t with hostQueue := [.deliver v] }) hw rfl)

theorem vm_step_answers (vm : Vm) : ∃ vm', vm.step = .next vm' := by
  obtain ⟨t, ht⟩ := step_answers vm.block
  unfold Vm.step
  split
  · exact ⟨_, rfl⟩
  · simp only [ht]
    exact ⟨_, rfl⟩

theorem vm_fedRun_answers (arrivals : Nat → OverlayArrival) (n : Nat) (vm : Vm) : ∃ vm', vm.fedRun arrivals n = .next vm' := by
  obtain ⟨vm', h, -⟩ := fedRun_induction (P := fun _ _ => True) (s := vm) trivial
    (fun n w _ => (vm_step_answers (w.arrive (arrivals n))).imp fun _ hu => ⟨hu, trivial⟩) n
  exact ⟨vm', h⟩

/-- Settles O12: by induction on the number of steps, each of which answers and serves at most the head of the queue. -/
theorem stepAlwaysAnswersNext : Obligations.StepAlwaysAnswersNext := by
  refine ⟨step_answers, fun arrivals n s => ?_, fun answers n s t d v h hw hq hv => ?_, vm_fedRun_answers⟩
  · obtain ⟨t, ht, served, hs, hn⟩ := fedRun_servedInOrder arrivals n s
    exact ⟨t, served, ht, hs, hn⟩
  · exact ⟨_, fedRun_takes_answer h hw hq hv, rfl, by simp⟩

/-! ### The resolver -/

theorem regUnit_toNat (r : RegNum) : (BitVec.ofNat 16 (32768 + r.val)).toNat = 32768 + r.val := by
  have := r.isLt
  rw [BitVec.toNat_ofNat]
  omega

/-- A register reference resolves to the register's 16 bits (R72, decision D2). -/
theorem resolve?_register (s : State) (r : RegNum) : s.resolve? (BitVec.ofNat 16 (32768 + r.val)) = some (s.reg r) := by
  have hr := regUnit_toNat r
  rw [resolve?_valid s (by omega), sourceValue_register s (by omega), hr, reg_eq]

/-- Settles O24. -/
theorem resolverRule : Obligations.ResolverRule := by
  refine fun s => ⟨fun u hu => ?_, resolve?_register s, fun u => resolve?_invalid s⟩
  rw [resolve?_valid s (by omega), sourceValue_literal s hu]

/-- Settles O25: the register is the cell `set` writes. -/
theorem setThenResolve : Obligations.SetThenResolve := by
  intro s r b hb
  have hr := regUnit_toNat r
  refine ⟨_, exec_set_valid s (by omega) hb, ?_⟩
  rw [resolve?_register]
  simp [hr]

end Sys2Proof.Machine

/-! Proofs about `set`, `push` and `pop` (41_move_stack.md). What a written cell means for every read comes first, then `push` and
`pop` on valid slots; `set` on valid slots is `exec_set_valid`. -/

namespace Sys2Proof.Machine

variable {s t : State} {a v : CodeUnit} {rest : List CodeUnit}

/-! ### The written cell -/

/-- A state whose memory is the old one with `v` written at `d` has stored `v` there and nothing elsewhere (R33). -/
theorem storedAt_of_mem {d : Addr} {n : Nat} (h : t.mem = s.mem.write d v) (hd : d.val = n) : StoredAt s t n v := fun x => by
  simp [h, hd]

/-- Storing what the cell held already changes no cell. -/
theorem StoredAt.sameMemory {n : Nat} (h : StoredAt s t n (s.mem.lookup n)) : SameMemory s t := fun x => by
  rw [h x, read_eq]
  split
  · next hx => rw [hx]
  · rfl

/-! ### `push` and `pop` on valid slots -/

/-- `push` completes, since the stack of this build is unbounded (R18, decision D5). -/
theorem exec_push_valid (s : State) (ha : a.toNat ≤ 32775) :
    exec (.push a) s = .next ((s.pushUnit (sourceValue s a)).advance 2) := by
  rw [exec, execPush, withSource_valid _ _ ha, withPush_eq]

/-- `pop` on a stack with a top completes. -/
theorem exec_pop_concat (ha : a.toNat < 32776) (hs : s.stack = rest ++ [v]) :
    exec (.pop a) s = .next ((({ s with stack := rest } : State).writeCell ⟨_, ha⟩ v).advance 2) := by
  rw [exec, execPop, withAddress_valid _ _ ha, withPop_concat _ hs]

/-- `pop` on an empty stack faults (R92). -/
theorem exec_pop_nil (ha : a.toNat < 32776) (hs : s.stack = []) :
    exec (.pop a) s = .next (s.raise .stackUnderflow 0#16) := by
  rw [exec, execPop, withAddress_valid _ _ ha, withPop_nil _ hs]

/-- Pushing and popping one register stores into it what it held (R91, R92). -/
theorem push_then_pop_register (s : State) (hr : 32767 < a.toNat) (ha : a.toNat < 32776) :
    ∃ t u, exec (.push a) s = .next t ∧ exec (.pop a) t = .next u ∧ u.stack = s.stack ∧ SameMemory s u := by
  have hv : sourceValue s a = s.mem.lookup a.toNat := sourceValue_register s hr
  refine ⟨_, _, exec_push_valid s (Nat.le_of_lt_succ ha), exec_pop_concat ha rfl, rfl, ?_⟩
  exact StoredAt.sameMemory (storedAt_of_mem (congrArg (s.mem.write ⟨_, ha⟩) hv) rfl)

/-! ### The statements -/

/-- Settles O27. -/
theorem setResult : Obligations.SetResult := fun s _ _ ha hb =>
  ⟨_, exec_set_valid s (Nat.lt_succ_of_le ha) hb, storedAt_of_mem rfl rfl, rfl⟩

/-- Settles O29: a stack has a top or is empty. -/
theorem popResult : Obligations.PopResult := fun _ _ ha =>
  have ha := Nat.lt_succ_of_le ha
  ⟨fun _ _ hs => ⟨_, exec_pop_concat ha hs, storedAt_of_mem rfl rfl, rfl⟩, exec_pop_nil ha⟩

/-- Settles O30. -/
theorem pushThenPopRestores : Obligations.PushThenPopRestores := fun s r => by
  have hr := regUnit_toNat r
  exact push_then_pop_register s (by omega) (by omega)

/-- Settles O28. -/
theorem pushResult : Obligations.PushResult := fun s _ => exec_push_valid s

end Sys2Proof.Machine

/-! Proofs about `eq` and `gt` (42_compare.md). What the three-slot form does on valid slots, for every function it computes, comes
first; then the two comparisons as conditions on the 16-bit values as unsigned numbers. -/

namespace Sys2Proof.Machine

/-! ### The three-slot form on valid slots -/

/-- The three-slot form completes: it stores the computed value in the destination's cell and, besides, only advances the pc. -/
theorem execDSS_result (f : CodeUnit → CodeUnit → CodeUnit) (s : State) {a b c : CodeUnit} (ha : a.toNat ≤ 32775)
    (hb : b.toNat ≤ 32775) (hc : c.toNat ≤ 32775) :
    ∃ t, execDSS f a b c s = .next t ∧ StoredAt s t a.toNat (f (sourceValue s b) (sourceValue s c)) ∧
      t = { s with mem := t.mem, pc := s.pc + 4#16 } :=
  ⟨_, execDSS_valid f s (Nat.lt_succ_of_le ha) hb hc, storedAt_of_mem rfl rfl, rfl⟩

/-! ### The comparisons as conditions on numbers -/

/-- All 16 bits take part in the test for equality (R100, decision D2). -/
theorem eqUnit_eq_ite (vb vc : CodeUnit) : eqUnit vb vc = if vb.toNat = vc.toNat then 1#16 else 0#16 := by
  by_cases h : vb = vc
  · rw [eqUnit, beq_iff_eq.mpr h, truthUnit_true, if_pos (congrArg BitVec.toNat h)]
  · rw [eqUnit, beq_eq_false_iff_ne.mpr h, truthUnit_false, if_neg (mt BitVec.eq_of_toNat_eq h)]

/-- The order is strict and unsigned on all 16 bits (R101, decision D2). -/
theorem gtUnit_eq_ite (vb vc : CodeUnit) : gtUnit vb vc = if vb.toNat > vc.toNat then 1#16 else 0#16 := by
  by_cases h : vb.toNat > vc.toNat
  · rw [gtUnit, decide_eq_true h, truthUnit_true, if_pos h]
  · rw [gtUnit, decide_eq_false h, truthUnit_false, if_neg h]

/-! ### The statement -/

/-- Settles O32: both comparisons are the three-slot form, each with its condition on numbers. -/
theorem compareResults : Obligations.CompareResults := fun s a b c ha hb hc => by
  rw [← eqUnit_eq_ite, ← gtUnit_eq_ite]
  exact ⟨execDSS_result eqUnit s ha hb hc, execDSS_result gtUnit s ha hb hc⟩

end Sys2Proof.Machine

/-! Proofs about `jmp`, `jt` and `jf` (43_jump.md). The test of a condition as a test of a number comes first, then the three jumps on
valid slots, each with its answer as a jump or an advance. -/

namespace Sys2Proof.Machine

variable {a b : CodeUnit}

/-! ### The condition -/

/-- All 16 bits take part in the test of a condition (R106). -/
theorem isTrue_iff_toNat_ne_zero (v : CodeUnit) : isTrue v = true ↔ v.toNat ≠ 0 :=
  (isTrue_iff v).trans BitVec.toNat_inj.not.symm

/-- A jump or an advance, as a condition decides, sets the pc and nothing else. -/
theorem ite_jumpTo_advance (p : Prop) [Decidable p] (s : State) (target : CodeUnit) (n : Nat) :
    (if p then s.jumpTo target else s.advance n) = { s with pc := if p then target else s.pc + BitVec.ofNat 16 n } :=
  (apply_ite s.jumpTo p target (s.pc + BitVec.ofNat 16 n)).symm

/-! ### The jumps on valid slots -/

theorem exec_jmp_valid (s : State) (ha : a.toNat ≤ 32775) : exec (.jmp a) s = .next (s.jumpTo (sourceValue s a)) := by
  rw [exec, execJmp, withSource_valid _ _ ha]

theorem exec_jt_valid (s : State) (ha : a.toNat ≤ 32775) (hb : b.toNat ≤ 32775) : exec (.jt a b) s =
    .next (if (sourceValue s a).toNat ≠ 0 then s.jumpTo (sourceValue s b) else s.advance 3) := by
  rw [exec, execJt, withSource_valid _ _ ha, withSource_valid _ _ hb]
  simp only [isTrue_iff_toNat_ne_zero]

/-- `jf` advances where `jt` jumps and jumps where it advances (R107). -/
theorem exec_jf_valid (s : State) (ha : a.toNat ≤ 32775) (hb : b.toNat ≤ 32775) : exec (.jf a b) s =
    .next (if (sourceValue s a).toNat = 0 then s.jumpTo (sourceValue s b) else s.advance 3) := by
  rw [exec, execJf, withSource_valid _ _ ha, withSource_valid _ _ hb]
  simp only [isTrue_iff_toNat_ne_zero, ne_eq, ite_not]

/-! ### The statements -/

/-- Settles O33. -/
theorem jmpResult : Obligations.JmpResult := fun s _ => exec_jmp_valid s

/-- Settles O34: either jump jumps or advances, and both set the pc alone. -/
theorem conditionalJumpResults : Obligations.ConditionalJumpResults := fun s _ _ ha hb => by
  rw [exec_jt_valid s ha hb, exec_jf_valid s ha hb, ite_jumpTo_advance, ite_jumpTo_advance]
  exact ⟨rfl, rfl⟩

end Sys2Proof.Machine

/-! Proofs about `add`, `mult`, `mod`, `and`, `or` and `not` (44_alu.md). The computed values, as numbers and bit by bit, come first;
then what `mod` and `not` do on valid slots, the other four being the three-slot form of `execDSS_result`. -/

namespace Sys2Proof.Machine

variable {s t : State} {a b c v : CodeUnit}

/-! ### The computed values as numbers -/

theorem addUnit_toNat (vb vc : CodeUnit) : (addUnit vb vc).toNat = (vb.toNat + vc.toNat) % 32768 := reduceWord_toNat _

theorem multUnit_toNat (vb vc : CodeUnit) : (multUnit vb vc).toNat = (vb.toNat * vc.toNat) % 32768 := reduceWord_toNat _

/-- A value of `mod` is the remainder, masked (R113). -/
theorem modUnit?_toNat {vb vc : CodeUnit} (h : modUnit? vb vc = some v) :
    v.toNat = (vb.toNat % vc.toNat) % 32768 := by
  have h0 : vc ≠ 0#16 := by
    rintro rfl
    rw [modUnit?_zero] at h
    cases h
  rw [modUnit?_pos vb h0] at h
  cases h
  have hlt : vb.toNat % vc.toNat < 65536 := (Nat.mod_le _ _).trans_lt vb.isLt
  rw [maskWord_toNat, BitVec.toNat_ofNat, Nat.mod_eq_of_lt hlt]

/-- The 15-bit complement of a Word is its distance from 32767 (R116). -/
theorem notUnit_toNat {vb : CodeUnit} (h : vb.toNat ≤ 32767) : (notUnit vb).toNat = 32767 - vb.toNat := by
  rw [notUnit, maskWord_toNat, BitVec.toNat_not]
  omega

/-! ### The computed values bit by bit -/

theorem maskWord_getLsbD (u : CodeUnit) (k : Nat) : (maskWord u).getLsbD k = (u.getLsbD k && decide (k < 15)) := by
  have hmask : (0x7FFF#16).getLsbD k = decide (k < 15) := by
    rw [BitVec.getLsbD_ofNat, show (0x7FFF : Nat) = 2 ^ 15 - 1 from rfl, Nat.testBit_two_pow_sub_one, ← Bool.decide_and]
    exact decide_eq_decide.mpr (by omega)
  rw [maskWord, BitVec.getLsbD_and, hmask]

/-- The mask clears bit 15 (R110). -/
theorem maskWord_getLsbD_fifteen (u : CodeUnit) : (maskWord u).getLsbD 15 = false :=
  (maskWord_getLsbD u 15).trans (Bool.and_false _)

section Bits

variable {k : Nat} (hk : k < 15)
include hk

/-- The mask keeps the bits 0..14 (R110). -/
theorem maskWord_getLsbD_of_lt (u : CodeUnit) : (maskWord u).getLsbD k = u.getLsbD k := by simp [maskWord_getLsbD, hk]

theorem andUnit_getLsbD (vb vc : CodeUnit) : (andUnit vb vc).getLsbD k = (vb.getLsbD k && vc.getLsbD k) := by
  rw [andUnit, maskWord_getLsbD_of_lt hk, BitVec.getLsbD_and]

theorem orUnit_getLsbD (vb vc : CodeUnit) : (orUnit vb vc).getLsbD k = (vb.getLsbD k || vc.getLsbD k) := by
  rw [orUnit, maskWord_getLsbD_of_lt hk, BitVec.getLsbD_or]

theorem notUnit_getLsbD (vb : CodeUnit) : (notUnit vb).getLsbD k = !vb.getLsbD k := by
  rw [notUnit, maskWord_getLsbD_of_lt hk, BitVec.getLsbD_not, decide_eq_true (by omega : k < 16), Bool.true_and]

end Bits

/-! ### `mod` and `not` on valid slots -/

section Valid

variable (ha : a.toNat < 32776) (hb : b.toNat ≤ 32775)
include ha hb

/-- `mod` by a divisor other than zero completes. -/
theorem exec_mod_of_some (hc : c.toNat ≤ 32775) (hv : modUnit? (sourceValue s b) (sourceValue s c) = some v) :
    exec (.mod a b c) s = .next ((s.writeCell ⟨_, ha⟩ v).advance 4) := by
  simp only [exec, execMod, withAddress_valid _ _ ha, withSource_valid _ _ hb, withSource_valid _ _ hc, hv]

/-- `mod` by zero faults (R113). -/
theorem exec_mod_of_none (hc : c.toNat ≤ 32775) (hv : modUnit? (sourceValue s b) (sourceValue s c) = none) :
    exec (.mod a b c) s = .next (s.raise .divideByZero 0#16) := by
  simp only [exec, execMod, withAddress_valid _ _ ha, withSource_valid _ _ hb, withSource_valid _ _ hc, hv]

theorem exec_not_valid : exec (.not a b) s = .next ((s.writeCell ⟨_, ha⟩ (notUnit (sourceValue s b))).advance 3) := by
  rw [exec, execNot, withAddress_valid _ _ ha, withSource_valid _ _ hb]

end Valid

/-! ### Computed values are Words -/

theorem reduceWord_toNat_le (n : Nat) : (reduceWord n).toNat ≤ 32767 := by rw [reduceWord_toNat]; omega

theorem maskWord_toNat_le (u : CodeUnit) : (maskWord u).toNat ≤ 32767 := by rw [maskWord_toNat]; omega

theorem modUnit?_toNat_le {vb vc : CodeUnit} (h : modUnit? vb vc = some v) : v.toNat ≤ 32767 := by
  rw [modUnit?_toNat h]; omega

/-- An instruction that writes a Word, unless it faults, leaves a Word in its destination. -/
theorem raised_or_word_at_dest {n : Nat} (hv : v.toNat ≤ 32767) (h : Wrote s t a v n ∨ Raised s t) :
    Raised s t ∨ ∃ d : Addr, d.val = a.toNat ∧ (t.read d).toNat ≤ 32767 :=
  h.symm.imp_right fun ⟨ha, ht⟩ => ⟨⟨_, ha⟩, rfl, by simpa [ht] using hv⟩

/-! ### The statements -/

/-- Settles O35: `add` is the three-slot form with the exact sum. -/
theorem addResult : Obligations.AddResult := fun s _ b c ha hb hc =>
  have ⟨t, ht, hst, hf⟩ := execDSS_result addUnit s ha hb hc
  ⟨t, _, ht, hst, addUnit_toNat (sourceValue s b) (sourceValue s c), hf⟩

/-- Settles O36: `mult` is the three-slot form with the exact product. -/
theorem multResult : Obligations.MultResult := fun s _ b c ha hb hc =>
  have ⟨t, ht, hst, hf⟩ := execDSS_result multUnit s ha hb hc
  ⟨t, _, ht, hst, multUnit_toNat (sourceValue s b) (sourceValue s c), hf⟩

/-- Settles O37: there is a remainder exactly when the divisor is not zero. -/
theorem modResult : Obligations.ModResult := by
  intro s a b c ha hb hc
  have ha := Nat.lt_succ_of_le ha
  refine ⟨fun h => ?_, fun h => ?_⟩
  · have hv := modUnit?_pos (sourceValue s b) (mt BitVec.toNat_inj.mpr h)
    exact ⟨_, _, exec_mod_of_some ha hb hc hv, storedAt_of_mem rfl rfl, modUnit?_toNat hv, rfl⟩
  · have h0 : sourceValue s c = 0#16 := BitVec.eq_of_toNat_eq h
    exact exec_mod_of_none ha hb hc (h0 ▸ modUnit?_zero _)

/-- Settles O38: `and` is the three-slot form with the masked conjunction. -/
theorem andResult : Obligations.AndResult := fun s _ _ _ ha hb hc =>
  have ⟨t, ht, hst, hf⟩ := execDSS_result andUnit s ha hb hc
  ⟨t, _, ht, hst, fun _ hk => andUnit_getLsbD hk _ _, maskWord_getLsbD_fifteen _, hf⟩

/-- Settles O39: `or` is the three-slot form with the masked disjunction. -/
theorem orResult : Obligations.OrResult := fun s _ _ _ ha hb hc =>
  have ⟨t, ht, hst, hf⟩ := execDSS_result orUnit s ha hb hc
  ⟨t, _, ht, hst, fun _ hk => orUnit_getLsbD hk _ _, maskWord_getLsbD_fifteen _, hf⟩

/-- Settles O40: `not` on valid slots stores the masked complement. -/
theorem notResult : Obligations.NotResult := fun _ _ _ ha hb =>
  ⟨_, _, exec_not_valid (Nat.lt_succ_of_le ha) hb, storedAt_of_mem rfl rfl, fun _ hk => notUnit_getLsbD hk _,
    maskWord_getLsbD_fifteen _, notUnit_toNat, rfl⟩

/-- Settles O41: what each of the six writes is reduced modulo 32768 or masked. -/
theorem computedResultsAreWords : Obligations.ComputedResultsAreWords := by
  intro s t a b c i hi h
  simp only [List.mem_cons, List.not_mem_nil, or_false] at hi
  rcases hi with rfl | rfl | rfl | rfl | rfl | rfl
  · exact raised_or_word_at_dest (reduceWord_toNat_le _) (execDSS_next h)
  · exact raised_or_word_at_dest (reduceWord_toNat_le _) (execDSS_next h)
  · rcases exec_mod_next h with ⟨v, hv, hw⟩ | hr
    · exact raised_or_word_at_dest (modUnit?_toNat_le hv) (.inl hw)
    · exact .inl hr
  · exact raised_or_word_at_dest (maskWord_toNat_le _) (execDSS_next h)
  · exact raised_or_word_at_dest (maskWord_toNat_le _) (execDSS_next h)
  · exact raised_or_word_at_dest (maskWord_toNat_le _) (exec_not_next h)

end Sys2Proof.Machine

/-! Proofs about `rmem` and `wmem` (45_mem.md). What the two do on valid slots when the effective address is above 32775 comes first;
with a valid effective address they are `exec_rmem_valid` and `exec_wmem_valid`. -/

namespace Sys2Proof.Machine

variable {a b : CodeUnit}

/-! ### The effective address out of range -/

/-- `rmem` checks its destination and its source before the effective address, which then faults (R120). -/
theorem exec_rmem_out_of_range (s : State) (ha : a.toNat < 32776) (hb : b.toNat ≤ 32775)
    (he : 32775 < (sourceValue s b).toNat) :
    exec (.rmem a b) s = .next (s.raise .addressOutOfRange (sourceValue s b)) := by
  rw [exec, execRmem, withAddress_valid _ _ ha, withSource_valid _ _ hb, withAddress_invalid _ _ he]

/-- `wmem` checks both sources before the effective address, which then faults (R121). -/
theorem exec_wmem_out_of_range (s : State) (ha : a.toNat ≤ 32775) (hb : b.toNat ≤ 32775)
    (he : 32775 < (sourceValue s a).toNat) :
    exec (.wmem a b) s = .next (s.raise .addressOutOfRange (sourceValue s a)) := by
  rw [exec, execWmem, withSource_valid _ _ ha, withSource_valid _ _ hb, withAddress_invalid _ _ he]

/-! ### The statements -/

/-- Settles O42: the addressed cell is the one the effective address numbers, read before the destination is written. -/
theorem rmemResult : Obligations.RmemResult := by
  intro s a b ha hb
  have ha := Nat.lt_succ_of_le ha
  refine ⟨?_, exec_rmem_out_of_range s ha hb⟩
  rintro ⟨_, he⟩ rfl
  exact ⟨_, exec_rmem_valid s ha hb he, storedAt_of_mem rfl rfl, rfl⟩

/-- Settles O43: the value of slot `a` is an address or is out of range. -/
theorem wmemResult : Obligations.WmemResult := fun s _ _ ha hb =>
  ⟨fun he => ⟨_, exec_wmem_valid s ha hb (Nat.lt_succ_of_le he), storedAt_of_mem rfl rfl, rfl⟩,
    exec_wmem_out_of_range s ha hb⟩

end Sys2Proof.Machine

/-! Proofs about `call` and `ret` (46_call_ret.md). What `call` does on a valid slot and `ret` on each shape of the stack comes first;
the round trip is the one followed by the other. -/

namespace Sys2Proof.Machine

variable {s : State} {a v : CodeUnit} {rest : List CodeUnit}

/-! ### `call` and `ret` -/

/-- `call` completes, since the stack of this build is unbounded (R18, decision D5). -/
theorem exec_call_valid (s : State) (ha : a.toNat ≤ 32775) :
    exec (.call a) s = .next ((s.pushUnit (s.pc + 2#16)).jumpTo (sourceValue s a)) := by
  rw [exec, execCall, withSource_valid _ _ ha, withPush_eq]

/-- `ret` on a stack with a top jumps to it. -/
theorem exec_ret_concat (hs : s.stack = rest ++ [v]) :
    exec .ret s = .next (({ s with stack := rest } : State).jumpTo v) := by
  simp only [exec, execRet, popUnit?_concat hs]

/-- `ret` on an empty stack stops normally, with the pc advanced (R126, decision D10). -/
theorem exec_ret_nil (hs : s.stack = []) : exec .ret s = .next (s.advance 1).stopNormally := by
  simp only [exec, execRet, popUnit?_nil hs]

/-! ### The statements -/

/-- Settles O47: `ret` pops the entry `call` has pushed. -/
theorem callThenRetReturns : Obligations.CallThenRetReturns := fun s _ ha =>
  ⟨_, exec_call_valid s ha, exec_ret_concat rfl⟩

/-- Settles O45. -/
theorem callResult : Obligations.CallResult := fun s _ => exec_call_valid s

/-- Settles O46: a stack has a top or is empty. -/
theorem retResult : Obligations.RetResult := fun _ => ⟨fun _ _ => exec_ret_concat, exec_ret_nil⟩

end Sys2Proof.Machine

/-! Proofs about `out` and `in` (47_io.md). What the two do on a valid slot comes first, then the completion that a delivery gives an
`in`, at once or out of the wait, and last what a step does to the output stream. -/

namespace Sys2Proof.Machine

variable {s t : State} {a v : CodeUnit} {d : Addr} {rest : List HostAction} {i : Instr}

/-! ### `out` and `in` on a valid slot -/

theorem exec_out_valid (s : State) (ha : a.toNat ≤ 32775) :
    exec (.out a) s = .next ((s.emit (sourceValue s a)).advance 2) := by
  rw [exec, execOut, withSource_valid _ _ ha]

theorem exec_inp_valid (s : State) (hd : d.val = a.toNat) : exec (.inp a) s = .next (s.requestInput d) := by
  rw [exec, execInp, withAddress, addrOf?_val hd]

/-- An answer at the head of the queue completes the `in` in the same step (log entry 15). -/
theorem requestInput_deliver (d : Addr) (hq : s.hostQueue = .deliver v :: rest) :
    s.requestInput d = { s with hostQueue := rest }.completeInput d v := by
  rw [State.requestInput, hq]

/-- Without an answer at hand the `in` is suspended (R131, decision D14). -/
theorem requestInput_waits (d : Addr) (hn : ∀ v rest, s.hostQueue ≠ .deliver v :: rest) :
    s.requestInput d = { s with status := .waitInput d } := by
  rcases requestInput_cases s d with ⟨v, rest, hq, -⟩ | ⟨-, h⟩
  · exact absurd hq (hn v rest)
  · exact h

/-! ### The completion of an `in` -/

theorem pcAfterInput_eq_ite (p : CodeUnit) :
    pcAfterInput p = if p.toNat < 65534 then p + 2#16 else Config.pcPastTop p :=
  if_congr Nat.lt_sub_iff_add_lt.symm rfl rfl

/-- A completed `in` stores the answer in the latched destination, takes it from the queue and leaves the engine running, with
the pc as it was then plus 2 where that fits (R131). -/
theorem completeInput_result {r : Result} (h : r = .next ({ s with hostQueue := rest }.completeInput d v)) :
    ∃ t, r = .next t ∧ StoredAt s t d.val v ∧
      t = { s with mem := t.mem, pc := t.pc, status := .running, hostQueue := rest } ∧
      t.pc = if s.pc.toNat < 65534 then s.pc + 2#16 else Config.pcPastTop s.pc :=
  ⟨_, h, storedAt_of_mem rfl rfl, rfl, pcAfterInput_eq_ite s.pc⟩

/-! ### The output stream -/

theorem Raised.output_eq (h : Raised s t) : t.output = s.output := by
  obtain ⟨_, _, rfl⟩ := h; rfl

/-- A fault emits nothing, so only the instruction's own effect `P` remains to be looked at. -/
theorem output_eq_unless_raised {P : Prop} (h : P ∨ Raised s t) (own : P → t.output = s.output) : t.output = s.output :=
  h.elim own Raised.output_eq

theorem requestInput_output (s : State) (d : Addr) : (s.requestInput d).output = s.output := by
  rcases requestInput_cases s d with ⟨_, _, -, h⟩ | ⟨-, h⟩ <;> simp [h]

/-- An instruction other than `out` emits nothing (R142). -/
theorem exec_output_eq (h : exec i s = .next t) (hi : ∀ a, i ≠ .out a) : t.output = s.output := by
  cases i with
  | out a => exact absurd rfl (hi a)
  | halt | noop => cases h; rfl
  | ret => rcases exec_ret_next h with ⟨-, rfl⟩ | ⟨_, _, -, rfl⟩ <;> rfl
  | eq | gt | add | mult | and | or => exact output_eq_unless_raised (execDSS_next h) fun ⟨_, ht⟩ => ht ▸ rfl
  | set => exact output_eq_unless_raised (exec_set_next h) fun ⟨_, ht⟩ => ht ▸ rfl
  | not => exact output_eq_unless_raised (exec_not_next h) fun ⟨_, ht⟩ => ht ▸ rfl
  | wmem => exact output_eq_unless_raised (exec_wmem_next h) fun ⟨_, ht⟩ => ht ▸ rfl
  | mod => exact output_eq_unless_raised (exec_mod_next h) fun ⟨_, _, _, ht⟩ => ht ▸ rfl
  | rmem => exact output_eq_unless_raised (exec_rmem_next h) fun ⟨_, _, _, ht⟩ => ht ▸ rfl
  | pop => exact output_eq_unless_raised (exec_pop_next h) fun ⟨_, _, _, _, ht⟩ => ht ▸ rfl
  | push => exact output_eq_unless_raised (exec_push_next h) fun ht => ht ▸ rfl
  | jmp => exact output_eq_unless_raised (exec_jmp_next h) fun ht => ht ▸ rfl
  | jt => exact output_eq_unless_raised (exec_jt_next h) fun ht => by rw [ht]; split <;> rfl
  | jf => exact output_eq_unless_raised (exec_jf_next h) fun ht => by rw [ht]; split <;> rfl
  | call => exact output_eq_unless_raised (exec_call_next h) fun ht => ht ▸ rfl
  | inp => exact output_eq_unless_raised (exec_inp_next h) fun ⟨d, _, ht⟩ => ht ▸ requestInput_output s d

/-- An engine that does not run emits nothing. -/
theorem step_output_of_not_running (hn : s.status ≠ .running) (h : step s = .next t) : t.output = s.output := by
  rcases step_next h with ⟨hr, -⟩ | ⟨hr, -⟩ | ⟨d, -, rfl⟩ | ⟨-, rfl⟩
  · exact absurd hr hn
  · exact absurd hr hn
  · exact serveWait_output s d
  · rfl

/-- A step that changes the output has executed the `out` that stands at the pc of a running engine. -/
theorem out_of_step_output_ne (h : step s = .next t) (hne : t.output ≠ s.output) :
    ∃ a, AtInstr (.out a) s ∧ exec (.out a) s.count = .next t := by
  by_cases hr : s.status = .running
  · rcases step_running_atInstr hr h with ⟨_, hf⟩ | ⟨i, hi, he⟩
    · exact absurd hf.output_eq hne
    · by_cases ho : ∃ a, i = .out a
      · obtain ⟨a, rfl⟩ := ho
        exact ⟨a, hi, he⟩
      · exact absurd (exec_output_eq he (not_exists.mp ho)) hne
  · exact absurd (step_output_of_not_running hr h) hne

/-! ### The statements -/

/-- Settles O16: the step has executed an `out`, whose slot is valid since a fault would have emitted nothing. -/
theorem outputGrowsOnlyByOut : Obligations.OutputGrowsOnlyByOut := by
  intro s t h hne
  obtain ⟨a, hi, he⟩ := out_of_step_output_ne h hne
  rcases exec_out_next he with ⟨ha, rfl⟩ | hf
  · exact ⟨a, ha, hi, rfl⟩
  · exact absurd hf.output_eq hne

/-- Settles O49: an answer at the head of the queue completes the `in`, anything else suspends it. -/
theorem inResult : Obligations.InResult := by
  intro s a d hd
  rw [← hd, exec_inp_valid s hd]
  refine ⟨fun v rest hq => completeInput_result ?_, fun hn => ?_⟩
  · rw [requestInput_deliver d hq]
  · rw [requestInput_waits d hn]

/-- Settles O50: the delivery served out of the wait is the completion of the `in`. -/
theorem deliveryCompletesInput : Obligations.DeliveryCompletesInput :=
  fun _ _ _ _ hw hq => completeInput_result (step_waiting_deliver hw hq)

/-- Settles O48. -/
theorem outResult : Obligations.OutResult := fun s _ => exec_out_valid s

end Sys2Proof.Machine

/-! Proofs about `halt` and `noop` (48_system.md). `noop` at the last main cell leaves the pc at the fetch limit. -/

namespace Sys2Proof.Machine

/-- Settles O51. -/
theorem haltResult : Obligations.HaltResult := fun _ => rfl

/-- A `noop` at the pc moves the pc by its one cell and counts its cycle (R136). -/
theorem step_noop {s : State} (h : AtInstr .noop s) :
    step s = .next { s with pc := s.pc + 1#16, cycles := s.cycles + 1 } := step_of_atInstr rfl h

/-- Settles O52: after a `noop` at 32767 the pc is at the fetch limit, where the next fetch faults. -/
theorem noopResult : Obligations.NoopResult := by
  refine fun s => ⟨rfl, step_noop, fun h hp => ?_⟩
  have hpc : s.pc + 1#16 = 32768#16 := BitVec.eq_of_toNat_eq ((pc_add_toNat (n := 1) (by omega)).trans (by rw [hp]; rfl))
  refine ⟨_, step_noop h, hpc, ?_⟩
  rw [hpc]
  exact pcPastLimitFaultsUncounted _ h.1 (Nat.le_refl 32768)

end Sys2Proof.Machine

/-! Proofs about the ends of a run (60_exceptions.md). An effect that ends in a fault is the fault itself; which instructions halt,
and which host action does, is said next, and the statements are assembled from these. -/

namespace Sys2Proof.Machine

variable {s t : State} {i : Instr} {a v : CodeUnit} {c : Cause}

/-! ### Faults -/

/-- An instruction that ends faulted has done nothing but raise that fault (R172). -/
theorem Effect.eq_raise (h : Effect s t) (hr : s.status = .running) (ht : t.status = .faulted c v) : t = s.raise c v := by
  cases h with
  | raised => cases ht; rfl
  | stored | moved | pushed | popped | returned | emitted => cases hr.symm.trans ht
  | stopped | waiting | received => cases ht

/-- Settles O13: the step has raised its fault in the counted state, or in the uncounted one if the pc was out of range. -/
theorem faultsArePrecise : Obligations.FaultsArePrecise := by
  intro s t c v hr h ht
  rcases step_next h with ⟨-, hp, rfl⟩ | ⟨-, hp, he⟩ | ⟨d, hw, -⟩ | ⟨hn, -⟩
  · cases ht
    rw [if_neg (by omega)]
    rfl
  · rw [if_pos (by omega), he.eq_raise hr ht]
    rfl
  · cases hr.symm.trans hw
  · exact absurd hr hn

/-! ### Normal ends -/

theorem Wrote.status_eq {n : Nat} (h : Wrote s t a v n) : t.status = s.status := by
  obtain ⟨_, rfl⟩ := h; rfl

theorem requestInput_ne_halted (s : State) (d : Addr) : (s.requestInput d).status ≠ .halted := by
  rcases requestInput_cases s d with ⟨_, _, -, h⟩ | ⟨-, h⟩ <;> simp [h]

/-- Of the instructions only `halt`, and `ret` on an empty stack, stop the engine normally (R177). -/
theorem halt_or_ret_of_exec_halted (hr : s.status = .running) (h : exec i s = .next t) (ht : t.status = .halted) :
    i = .halt ∨ (i = .ret ∧ s.stack = []) := by
  have hne : t.status ≠ s.status := by simp [ht, hr]
  have own {P : Prop} (h : P ∨ Raised s t) : P := of_not_faulted (.inr ht) h
  cases i with
  | halt => exact .inl rfl
  | ret =>
    rcases exec_ret_next h with ⟨hs, -⟩ | ⟨_, _, -, rfl⟩
    · exact .inr ⟨rfl, hs⟩
    · exact absurd rfl hne
  | noop => cases h; exact absurd rfl hne
  | eq | gt | add | mult | and | or => exact absurd (own (execDSS_next h)).status_eq hne
  | set => exact absurd (own (exec_set_next h)).status_eq hne
  | not => exact absurd (own (exec_not_next h)).status_eq hne
  | wmem => exact absurd (own (exec_wmem_next h)).status_eq hne
  | mod => obtain ⟨_, -, hw⟩ := own (exec_mod_next h); exact absurd hw.status_eq hne
  | rmem => obtain ⟨_, -, hw⟩ := own (exec_rmem_next h); exact absurd hw.status_eq hne
  | pop => obtain ⟨_, _, -, hw⟩ := own (exec_pop_next h); exact absurd hw.status_eq hne
  | push => obtain rfl := own (exec_push_next h); exact absurd rfl hne
  | jmp => obtain rfl := own (exec_jmp_next h); exact absurd rfl hne
  | jt => obtain rfl := own (exec_jt_next h); exact absurd (by split <;> rfl) hne
  | jf => obtain rfl := own (exec_jf_next h); exact absurd (by split <;> rfl) hne
  | call => obtain rfl := own (exec_call_next h); exact absurd rfl hne
  | out => obtain ⟨-, rfl⟩ := own (exec_out_next h); exact absurd rfl hne
  | inp => obtain ⟨d, -, rfl⟩ := own (exec_inp_next h); exact absurd ht (requestInput_ne_halted s d)

/-- A running engine halts exactly by one of the two instructions. -/
theorem step_halted_iff_of_running (hr : s.status = .running) (h : step s = .next t) :
    t.status = .halted ↔ AtInstr .halt s ∨ (AtInstr .ret s ∧ s.stack = []) := by
  constructor
  · intro ht
    rcases step_running_atInstr hr h with ⟨_, _, _, rfl⟩ | ⟨i, hi, he⟩
    · cases ht
    · rcases halt_or_ret_of_exec_halted (s := s.count) hr he ht with rfl | ⟨rfl, hs⟩
      · exact .inl hi
      · exact .inr ⟨hi, hs⟩
  · rintro (hi | ⟨hi, hs⟩)
    · cases (step_of_atInstr rfl hi).symm.trans h
      rfl
    · cases ((step_of_atInstr rfl hi).trans (exec_ret_nil (s := s.count) hs)).symm.trans h
      rfl

/-- Of the host's actions only a host halt stops a waiting engine (R150). -/
theorem hostAct_halted_iff {d : Addr} {act : HostAction} (hw : s.status = .waitInput d) :
    (s.hostAct d act).status = .halted ↔ act = .halt := by
  cases act with
  | deliver | halt => simp [State.hostAct]
  | poke | restore | dump | save => simp [State.hostAct, hw]

theorem serveWait_halted_iff {d : Addr} (hw : s.status = .waitInput d) :
    (s.serveWait d).status = .halted ↔ ∃ rest, s.hostQueue = .halt :: rest := by
  cases hq : s.hostQueue with
  | nil => simp [serveWait_nil d hq, hw]
  | cons act rest =>
    have ha := hostAct_halted_iff (s := { s with hostQueue := rest }) (act := act) hw
    simpa [serveWait_cons d hq] using ha

/-- No instruction stands at the pc of an engine that does not run. -/
theorem not_atInstr_of_not_running (hn : s.status ≠ .running) (i : Instr) : ¬ AtInstr i s := fun h => hn h.1

/-- Settles O19: by the status, each with its own equivalence; a faulted engine stays faulted. -/
theorem normalEndsAreThree : Obligations.NormalEndsAreThree := by
  intro s t hn h
  cases hs : s.status with
  | running => simp [step_halted_iff_of_running hs h]
  | waitInput d =>
    cases (step_waiting hs).symm.trans h
    simp [serveWait_halted_iff hs, not_atInstr_of_not_running (s := s) (by simp [hs])]
  | halted => exact absurd hs hn
  | faulted =>
    cases (step_faulted hs).symm.trans h
    simp [hs, not_atInstr_of_not_running (s := s) (by simp [hs])]

end Sys2Proof.Machine

/-! Proofs about the loader (70_reset_and_hazards.md). What the bytes of an image are as code units comes first, then what a step
leaves of the window in which the loader may act. -/

namespace Sys2Proof.Machine

variable {s t : State}

/-! ### The code units of an image -/

/-- A trailing odd byte is no code unit (R205). -/
@[simp] theorem unitsOfBytes_length : ∀ bytes : List Byte, (unitsOfBytes bytes).length = bytes.length / 2
  | [] | [_] => by simp [unitsOfBytes]
  | lo :: hi :: rest => by simp only [unitsOfBytes, List.length_cons, unitsOfBytes_length rest]; omega

theorem unitOfBytes_toNat (lo hi : Byte) : (unitOfBytes lo hi).toNat = lo.toNat + 256 * hi.toNat := by
  have := lo.isLt
  have := hi.isLt
  rw [unitOfBytes, BitVec.toNat_ofNat]
  omega

/-- Code unit `k` is bytes 2k and 2k + 1, low byte first (R205). -/
theorem unitsOfBytes_getD_toNat : ∀ (bytes : List Byte) {k : Nat}, k < bytes.length / 2 →
    ((unitsOfBytes bytes).getD k 0#16).toNat =
      (bytes.getD (2 * k) 0#8).toNat + 256 * (bytes.getD (2 * k + 1) 0#8).toNat
  | [], _, hk | [_], _, hk => by simp at hk
  | lo :: hi :: rest, 0, _ => unitOfBytes_toNat lo hi
  | lo :: hi :: rest, k + 1, hk => by
    simp only [List.length_cons] at hk
    simpa only [unitsOfBytes, Nat.mul_succ, List.getD_cons_succ] using
      unitsOfBytes_getD_toNat rest (show k < rest.length / 2 by omega)

/-! ### The loader -/

theorem loadImage_eq_ite (image : List Byte) (h : s.beforeFirstStep = true) : s.loadImage image =
    if image.length / 2 ≤ 32768 then some { s with mem := s.mem.storeMain 0 (unitsOfBytes image) } else none := by
  simp only [State.loadImage, h, Bool.true_and, decide_eq_true_eq, unitsOfBytes_length]

/-- After a load a cell holds its code unit of the image, or what it held before. -/
theorem lookup_storeMain_image (m : Memory) {image : List Byte} (h : image.length / 2 ≤ 32768) (a : Nat) :
    ((m.storeMain 0 (unitsOfBytes image)).lookup a).toNat =
      if a < image.length / 2 then (image.getD (2 * a) 0#8).toNat + 256 * (image.getD (2 * a + 1) 0#8).toNat
      else (m.lookup a).toNat := by
  rw [Memory.lookup_storeMain _ _ _ _ (by rw [unitsOfBytes_length]; omega)]
  simp only [Nat.zero_le, true_and, Nat.zero_add, unitsOfBytes_length, Nat.sub_zero]
  split
  · next ha => exact unitsOfBytes_getD_toNat image ha
  · rfl

/-! ### The window of the loader -/

/-- After a step the engine has counted a cycle or has stopped, if it has counted one whenever it waits (R19, R71, R131). -/
theorem step_counted_or_stopped (hc : ∀ d, s.status = .waitInput d → 0 < s.cycles) (h : step s = .next t) :
    0 < t.cycles ∨ t.status = .halted ∨ ∃ c v, t.status = .faulted c v := by
  rcases step_next h with ⟨-, -, rfl⟩ | ⟨-, -, he⟩ | ⟨d, hw, rfl⟩ | ⟨hn, rfl⟩
  · exact .inr (.inr ⟨_, _, rfl⟩)
  · exact .inl (he.cycles_eq ▸ Nat.succ_pos s.cycles)
  · exact .inl (serveWait_cycles s d ▸ hc d hw)
  · cases hs : t.status with
    | running => exact absurd hs hn
    | waitInput d => exact .inl (hc d hs)
    | halted => exact .inr (.inl rfl)
    | faulted c v => exact .inr (.inr ⟨c, v, rfl⟩)

/-- Settles O55: the image is stored unit by unit; a step leaves a counted cycle or a stopped engine, either outside the window. -/
theorem loaderPlacesImage : Obligations.LoaderPlacesImage := by
  refine ⟨fun s image hb => ⟨fun hl => ?_, fun hl => ?_⟩, loadImage_refused, fun _ => rfl, fun s t hc h => ?_⟩
  · rw [loadImage_eq_ite image hb, if_pos hl]
    exact ⟨_, rfl, rfl, fun x => lookup_storeMain_image s.mem hl x.val⟩
  · rw [loadImage_eq_ite image hb, if_neg (Nat.not_le.mpr hl)]
  · rw [← Bool.not_eq_true, beforeFirstStep_iff]
    rcases step_counted_or_stopped hc h with hp | hs | ⟨c, v, hs⟩
    · exact ⟨fun hb => absurd hb.2 (Nat.ne_of_gt hp), fun _ _ => hp⟩
    · simp [hs]
    · simp [hs]

/-- Settles O21: the reset memory and the reset queue are empty. -/
theorem resetMeetsInvariant : Obligations.ResetMeetsInvariant := inv_iff.mpr ⟨rfl, nofun⟩

end Sys2Proof.Machine

/-! Proofs about the host port and the status port (50_interfaces.md). One lemma per host action and per field of the port comes
first; then the layout of a snapshot file and the reading of one. -/

namespace Sys2Proof.Machine

variable {s : State} {d : Addr} {addr value : CodeUnit} {rest : List HostAction}

/-! ### Host actions -/

theorem poke_valid (s : State) (value : CodeUnit) (h : addr.toNat < 32776) :
    s.poke addr value = s.writeCell ⟨_, h⟩ value := by
  rw [State.poke, addrOf?_valid h]

/-- A poke above 32775 is refused (decision D22). -/
theorem poke_invalid (s : State) (value : CodeUnit) (h : 32775 < addr.toNat) : s.poke addr value = s := by
  rw [State.poke, addrOf?_invalid h]

/-- A poke stores its value in the cell it names and changes nothing else (R151). -/
theorem poke_result (s : State) (value : CodeUnit) (h : addr.toNat ≤ 32775) :
    StoredAt s (s.poke addr value) addr.toNat value ∧ s.poke addr value = { s with mem := (s.poke addr value).mem } := by
  rw [poke_valid s value (Nat.lt_succ_of_le h)]
  exact ⟨storedAt_of_mem rfl rfl, rfl⟩

/-- A waiting engine serves the host action at the head of its queue (R146). -/
theorem step_waiting_cons {act : HostAction} (hw : s.status = .waitInput d) (hq : s.hostQueue = act :: rest) :
    step s = .next ({ s with hostQueue := rest }.hostAct d act) := by
  rw [step_waiting hw, serveWait_cons d hq]

/-- Settles O53: each action by its own effect on the state without it at the head of the queue. -/
theorem hostActionsWhileWaiting : Obligations.HostActionsWhileWaiting := by
  intro s d rest hw
  refine ⟨step_waiting_cons hw, fun addr value hq ha => ?_, fun addr value hq ha => ?_, fun _ => step_waiting_cons hw,
    step_waiting_cons hw, step_waiting_cons hw⟩
  · obtain ⟨hst, hf⟩ := poke_result { s with hostQueue := rest } value ha
    exact ⟨_, step_waiting_cons hw hq, hst, hf⟩
  · rw [step_waiting_cons hw hq, State.hostAct, poke_invalid _ value ha]

/-! ### The status port -/

theorem statusName_running_iff (st : Status) : st.name = .running ↔ st = .running := by cases st <;> simp [Status.name]

theorem statusName_halted_iff (st : Status) : st.name = .halted ↔ st = .halted := by cases st <;> simp [Status.name]

theorem statusName_waitInput_iff (st : Status) : st.name = .waitInput ↔ ∃ d, st = .waitInput d := by
  cases st <;> simp [Status.name]

theorem statusName_faulted_iff (st : Status) : st.name = .faulted ↔ ∃ cause info, st = .faulted cause info := by
  cases st <;> simp [Status.name]

/-- The fault record of a faulted engine (R21). -/
theorem faultRecord_of_faulted {cause : Cause} {info : CodeUnit} (h : s.status = .faulted cause info) :
    s.cause? = some cause ∧ s.info? = some info := by
  simp [State.cause?, State.info?, h]

/-- There is no fault record in any other status (R21). -/
theorem faultRecord_of_not_faulted (h : ∀ cause info, s.status ≠ .faulted cause info) :
    s.cause? = none ∧ s.info? = none := by
  unfold State.cause? State.info?
  cases hs : s.status with
  | faulted cause info => exact absurd hs (h cause info)
  | running | waitInput | halted => exact ⟨rfl, rfl⟩

/-- The latch exists exactly in `WaitInput` (R22). -/
theorem latchA?_eq_some_iff : s.latchA? = some d ↔ s.status = .waitInput d := by
  cases hs : s.status <;> simp [State.latchA?, hs]

/-- Settles O60: the fields of the port by the four statuses, the codes and classes by the seven causes. -/
theorem statusPortAndFaultRecord : Obligations.StatusPortAndFaultRecord := by
  refine ⟨fun s => ⟨rfl, rfl, rfl, fun cause info h => ?_, faultRecord_of_not_faulted, statusName_running_iff _,
    statusName_halted_iff _, statusName_waitInput_iff _, statusName_faulted_iff _, fun _ => latchA?_eq_some_iff,
    fun _ _ => rfl⟩, rfl, fun c => ?_⟩
  · exact ⟨(statusName_faulted_iff _).mpr ⟨cause, info, h⟩, faultRecord_of_faulted h⟩
  · cases c <;> decide

/-! ### Snapshot files -/

variable {snap : Snapshot}

/-- The layout of a snapshot file: the pc, the depth, then the stack and the cells as one list of code units (R153). -/
theorem toBytes?_eq_layout (h : snap.stack.length < 2 ^ 32) : snap.toBytes? =
    some (unitBytes snap.pc ++ (countBytes snap.stack.length ++ bytesOfUnits (snap.stack ++ snap.mem.cells))) := by
  rw [Snapshot.toBytes?, if_pos h, Memory.dumpBytes, bytesOfUnits_append]

/-- Behind a stack the cells stand in address order. -/
theorem append_cells_getD (st : List CodeUnit) (m : Memory) (x : Addr) :
    (st ++ m.cells).getD (st.length + x.val) 0#16 = m.read x := by
  rw [List.getD_append_right _ _ _ _ (Nat.le_add_right _ _), Nat.add_sub_cancel_left, List.getD_eq_getElem?_getD,
    Memory.cells_getElem?]
  rfl

/-- A canonical memory is made again from its cells. -/
theorem Memory.ofCellsFrom_cells {m : Memory} (h : Memory.wf m = true) : Memory.ofCellsFrom 0 m.cells = m := by
  refine Memory.ext_of_wf (Memory.wfFrom_ofCellsFrom 0 _ (by simp)) h fun a => ?_
  rw [Memory.read, Memory.lookup_ofCellsFrom, if_pos (Nat.zero_le _), Nat.sub_zero]
  simpa using append_cells_getD [] m a

/-- What `toBytes?` has laid out is read back (R152, R153). -/
theorem ofBytes?_layout (hs : snap.stack.length < 2 ^ 32) (hm : Memory.wf snap.mem = true) :
    Snapshot.ofBytes?
      (unitBytes snap.pc ++ (countBytes snap.stack.length ++ bytesOfUnits (snap.stack ++ snap.mem.cells))) = some snap := by
  have hlen : (bytesOfUnits (snap.stack ++ snap.mem.cells)).length = 2 * snap.stack.length + 65552 := by
    rw [bytesOfUnits_length, List.length_append, Memory.cells_length]; omega
  simp only [unitBytes, countBytes, List.cons_append, List.nil_append, Snapshot.ofBytes?, countOfBytes_countBytes hs,
    if_pos hlen, unitsOfBytes_bytesOfUnits, List.take_left, List.drop_left, unitOfBytes_unitBytes,
    Memory.ofCellsFrom_cells hm]

/-- The six bytes of pc and depth come before the code units. -/
theorem layout_getD (pc : CodeUnit) (n : Nat) (bytes : List Byte) (k : Nat) :
    (unitBytes pc ++ (countBytes n ++ bytes)).getD (6 + k) 0#8 = bytes.getD k 0#8 := by
  rw [Nat.add_comm]; rfl

theorem unitBytes_toNat (u : CodeUnit) :
    ((unitBytes u).getD 0 0#8).toNat + 256 * ((unitBytes u).getD 1 0#8).toNat = u.toNat := by
  have := bytesOfUnits_getD [u] (k := 0) (by simp)
  simpa [bytesOfUnits] using this

/-- Code unit `k` of a snapshot file's stack and cells, low byte first. -/
theorem layout_unit (pc : CodeUnit) (n : Nat) {us : List CodeUnit} {k : Nat} (hk : k < us.length) :
    ((unitBytes pc ++ (countBytes n ++ bytesOfUnits us)).getD (6 + 2 * k) 0#8).toNat +
      256 * ((unitBytes pc ++ (countBytes n ++ bytesOfUnits us)).getD (7 + 2 * k) 0#8).toNat = (us.getD k 0#16).toNat := by
  rw [show 7 + 2 * k = 6 + (2 * k + 1) by omega, layout_getD, layout_getD]
  exact bytesOfUnits_getD us hk

/-- Settles O56: the file is laid out as R153 says, and what it holds is the snapshot it was made of. -/
theorem saveThenLoadIsIdentity : Obligations.SaveThenLoadIsIdentity := by
  intro s hm hd
  have hlen : (s.stack ++ s.mem.cells).length = s.depth + 32776 := by
    rw [List.length_append, Memory.cells_length, depth_eq]
  refine ⟨_, s.snapshot, toBytes?_eq_layout hd, ?_, unitBytes_toNat s.pc, countOfBytes_countBytes hd, fun k hk => ?_,
    fun x => ?_, ofBytes?_layout hd hm, rfl⟩
  · simp only [State.snapshot, unitBytes, countBytes, List.length_append, bytesOfUnits_length, hlen, List.length_cons,
      List.length_nil]
    omega
  · exact (layout_unit s.pc s.depth (hlen ▸ Nat.lt_add_right _ hk)).trans
      (congrArg BitVec.toNat (List.getD_append _ _ _ _ hk))
  · have hx : s.depth + x.val < (s.stack ++ s.mem.cells).length := hlen ▸ Nat.add_lt_add_left x.isLt _
    rw [show 6 + 2 * s.depth + 2 * x.val = 6 + 2 * (s.depth + x.val) by omega,
      show 7 + 2 * s.depth + 2 * x.val = 7 + 2 * (s.depth + x.val) by omega]
    exact (layout_unit s.pc s.depth hx).trans (congrArg BitVec.toNat (append_cells_getD s.stack s.mem x))

end Sys2Proof.Machine

/-! Proofs about the overlay (50_interfaces.md R148, R149, R156). A move of the whole virtual machine is the overlay's answer with
the host action it performs, if any; then one equation per answer and per command. -/

namespace Sys2Proof.Machine

variable {vm : Vm} {o : Overlay} {s : State} {d : Addr} {line : List CodeUnit} {rest : List (List CodeUnit)}
  {command : Command} {act : HostAction}

/-! ### A move of the whole virtual machine -/

/-- A waiting block after the overlay's answer: the host action it performs, if it performs one. -/
def State.perform (s : State) (d : Addr) (action : Option HostAction) : State := action.elim s (s.hostAct d)

/-- With no host action queued the overlay moves for a waiting block (R148). -/
theorem vm_step_waiting (hw : vm.block.status = .waitInput d) (hq : vm.block.hostQueue = []) :
    vm.step = .next
      { overlay := (vm.overlay.answer vm.block).1, block := vm.block.perform d (vm.overlay.answer vm.block).2 } := by
  unfold Vm.step
  simp only [hw, hq]
  cases (vm.overlay.answer vm.block).2 <;> rfl

theorem answer_pending {c : CodeUnit} {chars : List CodeUnit} (s : State) (hp : o.pending = c :: chars) :
    o.answer s = ({ o with pending := chars }, some (.deliver c)) := by
  simp only [Overlay.answer, hp]

theorem answer_guestLine (s : State) (hp : o.pending = []) (hl : o.lines = line :: rest) (hc : parseCommand line = none) :
    o.answer s = ({ o with lines := rest, pending := line ++ [newlineUnit] }, none) := by
  simp only [Overlay.answer, hp, hl, hc]

theorem answer_command (s : State) (hp : o.pending = []) (hl : o.lines = line :: rest) (hc : parseCommand line = some command) :
    o.answer s = Overlay.runCommand { o with lines := rest } s command := by
  simp only [Overlay.answer, hp, hl, hc]

/-- A command line is carried out in one move and never shown to the guest (R148). -/
theorem vm_step_command (hw : vm.block.status = .waitInput d) (hq : vm.block.hostQueue = []) (hp : vm.overlay.pending = [])
    (hl : vm.overlay.lines = line :: rest) (hc : parseCommand line = some command) {o : Overlay} {action : Option HostAction}
    (hr : Overlay.runCommand { vm.overlay with lines := rest } vm.block command = (o, action)) :
    vm.step = .next { overlay := o, block := vm.block.perform d action } := by
  rw [vm_step_waiting hw hq, answer_command vm.block hp hl hc, hr]

/-! ### What a command does to the block -/

theorem ne_deliver_of_performs (h : command.performs act) (v : CodeUnit) : act ≠ .deliver v := by
  rintro rfl
  cases command <;> simp [Command.performs] at h

theorem eq_halt_of_performs_halt (h : command.performs .halt) : command = .halt := by
  cases command <;> simp [Command.performs] at h ⊢

@[simp] theorem perform_cycles (s : State) (d : Addr) (action : Option HostAction) :
    (s.perform d action).cycles = s.cycles := by
  cases action with
  | none => rfl
  | some act => exact hostAct_cycles s d act

/-- A command leaves the wait and its latch alone, unless it is `!halt` (R146, R150). -/
theorem perform_command_status (o : Overlay) (hw : s.status = .waitInput d) (command : Command) :
    (s.perform d (o.runCommand s command).2).status = if command = .halt then .halted else .waitInput d := by
  split
  · next hc => rw [hc]; rfl
  · next hc =>
    obtain ⟨-, -, hact⟩ := runCommand_spec o s command
    cases ha : (o.runCommand s command).2 with
    | none => exact hw
    | some act =>
      have hperf := hact act ha
      have hne : act ≠ .halt := by
        rintro rfl
        exact hc (eq_halt_of_performs_halt hperf)
      exact (hostAct_status s d (ne_deliver_of_performs hperf) hne).trans hw

/-! ### The commands that use a file -/

/-- A file access of `!dump`, `!save` or `!load` that fails ends the command (R156, log entry 19). -/
theorem runCommand_fails {faults : List Bool} (s : State) (hc : command ∈ [Command.dump, .save, .load])
    (hf : o.fileFaults = true :: faults) : o.runCommand s command = ({ o with fileFaults := faults }, none) := by
  simp only [List.mem_cons, List.not_mem_nil, or_false] at hc
  rcases hc with rfl | rfl | rfl <;> rw [Overlay.runCommand, withFile_fails _ hf]

section Succeeds

variable (s : State) (hf : o.fileFaults.headD false = false)
include hf

theorem runCommand_dump : o.runCommand s .dump =
    ({ o with fileFaults := o.fileFaults.tail, dumpFile := some s.mem.dumpBytes }, some .dump) := by
  rw [Overlay.runCommand, withFile_succeeds _ hf]

theorem runCommand_save {bytes : List Byte} (hb : s.snapshot.toBytes? = some bytes) : o.runCommand s .save =
    ({ o with fileFaults := o.fileFaults.tail, snapshotFile := some bytes }, some .save) := by
  simp only [Overlay.runCommand, withFile_succeeds _ hf, hb]

theorem runCommand_load {bytes : List Byte} {snap : Snapshot} (hs : o.snapshotFile = some bytes)
    (hb : Snapshot.ofBytes? bytes = some snap) :
    o.runCommand s .load = ({ o with fileFaults := o.fileFaults.tail }, some (.restore snap)) := by
  simp only [Overlay.runCommand, withFile_succeeds _ hf, hs, Option.bind_some, hb]

end Succeeds

/-! ### The statements -/

/-- Settles O58: by what the overlay finds, a pending character, a guest line or one of the commands. -/
theorem overlayFeedsTheGuest : Obligations.OverlayFeedsTheGuest := by
  intro vm d hw hq
  refine ⟨fun c chars hp => ?_, fun line rest hp hl hc => ?_, fun line rest command hp hl hc => ?_,
    fun line rest hp hl => ⟨fun hc => ?_, fun addr value hc ha => ?_, fun addr value hc ha => ?_⟩,
    fun line rest hp hl hf => ⟨fun hc => ?_, fun bytes hc hb => ?_, fun bytes snap hc hs hb => ?_⟩⟩
  · rw [vm_step_waiting hw hq, answer_pending vm.block hp]; rfl
  · rw [vm_step_waiting hw hq, answer_guestLine vm.block hp hl hc]; rfl
  · obtain ⟨hlines, hpending, -⟩ := runCommand_spec { vm.overlay with lines := rest } vm.block command
    refine ⟨_, vm_step_command hw hq hp hl hc rfl, hpending.trans hp, hlines, perform_cycles _ _ _, ?_,
      perform_command_status _ hw command⟩
    rintro rfl
    rfl
  · exact vm_step_command hw hq hp hl hc rfl
  · obtain ⟨hst, hframe⟩ := poke_result vm.block value ha
    exact ⟨_, hst, hframe, vm_step_command hw hq hp hl hc rfl⟩
  · rw [vm_step_command hw hq hp hl hc rfl, State.perform, Option.elim_some, State.hostAct, poke_invalid _ value ha]
  · exact vm_step_command hw hq hp hl hc (runCommand_dump (o := { vm.overlay with lines := rest }) vm.block hf)
  · exact vm_step_command hw hq hp hl hc (runCommand_save (o := { vm.overlay with lines := rest }) vm.block hf hb)
  · exact vm_step_command hw hq hp hl hc (runCommand_load (o := { vm.overlay with lines := rest }) vm.block hf hs hb)

/-- Settles O59: the command performs no host action. -/
theorem failedLoadLeavesBlock : Obligations.FailedLoadLeavesBlock := by
  intro vm d line rest hw hq hp hl
  refine ⟨fun hc hs => ⟨_, vm_step_command hw hq hp hl hc rfl, ?_⟩, fun command hm hc faults hf => ?_⟩
  · exact congrArg (vm.block.perform d) (runCommand_load_unreadable (o := { vm.overlay with lines := rest }) vm.block hs)
  · exact vm_step_command hw hq hp hl hc (runCommand_fails (o := { vm.overlay with lines := rest }) vm.block hm hf)

end Sys2Proof.Machine
